-- ==== Sys2Proof/Word.lean ====
section
/-! DEFINITION. The word and byte types. 00_scope.md R7: bit 0 is the least significant bit; 10_state.md R13, R48:
the register and the general registers are 32 bits wide. -/

namespace Sys2Proof

/-- A 32-bit register value, instruction word or address (10_state.md R13, R40, R48). -/
abbrev Word := BitVec 32

/-- One byte of program text (20_memory.md R58). -/
abbrev Byte := BitVec 8

end Sys2Proof
end

