-- ==== Sys2Proof/Config.lean ====
section
/-! DEFINITION. The implementation parameters of 00_scope.md R6 (checklist A4). A parameter is fixed for the life of
the hardware: the model holds them as one plain record that State carries and no step writes (log 1). -/

namespace Sys2Proof

/-- The instruction set a word is decoded in: parameter `INSTR_SET`, 30_encoding.md R74. -/
inductive InstrSet where
  | a32
  | t32
deriving DecidableEq, Repr, Inhabited

/-- The kind of the Level 1 cache: parameter `L1_KIND`, 10_state.md R24. -/
inductive L1Kind where
  | unified
  | harvard
  | unknown
deriving DecidableEq, Repr, Inhabited

/-- The data byte order: parameter `DATA_ENDIAN`, 20_memory.md R58. -/
inductive Endian where
  | little
  | big
deriving DecidableEq, Repr, Inhabited

/-- The plain-data parameters of 00_scope.md R6, each under the name the spec gives it there. -/
structure Config where
  /-- `IDMMFR1_VALUE`: what every read of `ID_MMFR1` returns (10_state.md R39). -/
  idmmfr1Value : Word
  /-- `EL1_CAN_USE_AARCH32`: the register is present exactly when this is true (10_state.md R38). -/
  el1CanUseAArch32 : Bool
  /-- `FCSE_SUPPORTED` (70_reset_and_hazards.md R117). -/
  fcseSupported : Bool
  /-- `BP_IMPLEMENTED` (10_state.md R22). -/
  bpImplemented : Bool
  /-- `L1_KIND` (10_state.md R24). -/
  l1Kind : L1Kind
  /-- `ARMV8A`: true under decision D1; false leaves only `Defined` binding (10_state.md R50, U8). -/
  armv8a : Bool
  /-- `INSTR_SET` (30_encoding.md R74). -/
  instrSet : InstrSet
  /-- `DATA_ENDIAN`, read by no rule (20_memory.md R58). -/
  dataEndian : Endian
deriving DecidableEq, Repr, Inhabited

/-- `SYNDROME`: the open function from `(ec, instruction word)` to 32 bits, read by no rule
(00_scope.md R6, 60_exceptions.md R98; log 11). It has no body: nothing can be proved of its values. -/
opaque Config.syndrome : BitVec 6 → Word → Word

end Sys2Proof
end

