-- ==== Sys2Proof/Syntax.lean ====
section
/-! DEFINITION. The instructions, at the tuple layer that 30_encoding.md takes as its trusted level: the records of
the assembler syntax line (R67, R68), the two instructions of the opcode table, and the names of what the decoder
declines (R80). -/

namespace Sys2Proof

/-- A location of the System register encoding space: five unsigned fields of widths 4, 3, 4, 4 and 3 bits
(20_memory.md R53). -/
structure SysRegTuple where
  coproc : BitVec 4
  opc1 : BitVec 3
  crn : BitVec 4
  crm : BitVec 4
  opc2 : BitVec 3
deriving DecidableEq, Repr

/-- The direction of a System register access: `MRC` reads, `MCR` writes (30_encoding.md R68, R69). -/
inductive Direction where
  | mrc
  | mcr
deriving DecidableEq, Repr

/-- The tuple-layer record `MRC(c, coproc, opc1, t, CRn, CRm, opc2)` of 30_encoding.md, and its `MCR` twin. The
assembler qualifier `<q>` has no place in an encoding (R67, GK12). -/
structure AccessRecord where
  dir : Direction
  /-- `<c>`, the condition, as the 4-bit field that carries it. -/
  cond : BitVec 4
  /-- `<coproc>`, `<opc1>`, `<CRn>`, `<CRm>`, `<opc2>`: the location. -/
  loc : SysRegTuple
  /-- `t`, the unsigned value of `<Rt>` (R72). -/
  t : Fin 16
deriving DecidableEq, Repr

/-- The names under which a form is declined: `Refused(reason)` of 30_encoding.md R80. -/
inductive RefusedReason where
  /-- An `MCR` with the register's tuple (R77). -/
  | writeForm
  /-- Any word or record that is not an access to this register (R78). -/
  | notThisRegister
  /-- A condition other than always (R75). -/
  | condition
  /-- `Rt` is 15 (R76). -/
  | rtIs15
deriving DecidableEq, Repr

/-- The instructions of spec/opcode_table.json. The table's four rows are two instructions, each in its A32 and its
T32 encoding; the operands are the table's free fields, `cond` and `Rt` (log 8). -/
inductive Instr where
  /-- `MRC_ID_MMFR1`: `MRC<c> p15, 0, <Rt>, c0, c1, 5` (40_sysreg_read.md R81). -/
  | mrcIdMmfr1 (c : BitVec 4) (t : Fin 16)
  /-- `MCR_ID_MMFR1_refused`: `MCR<c> p15, 0, <Rt>, c0, c1, 5` (30_encoding.md R77). -/
  | mcrIdMmfr1Refused (c : BitVec 4) (t : Fin 16)
deriving DecidableEq, Repr

end Sys2Proof
end

