-- ==== Sys2Proof/WellFormed.lean ====
section
/-! DEFINITION. Which operands an instruction may have: the admitted forms of 30_encoding.md section 6. -/

namespace Sys2Proof

/-- The condition check (30_encoding.md R75): only the always-executed form, `cond == 0b1110`. -/
def wellFormedCond (c : BitVec 4) : Bool := c == 0b1110#4

/-- The destination check (30_encoding.md R76): `t` from 0 to 14. -/
def wellFormedRt (t : Fin 16) : Bool := decide (t.val < 15)

/-- A form whose operands pass their checks. The write form has no admitted operand to check: it is refused whatever they are
(30_encoding.md R77). -/
def Instr.wellFormed : Instr → Bool
  | .mrcIdMmfr1 c t => wellFormedCond c && wellFormedRt t
  | .mcrIdMmfr1Refused _ _ => true

/-- An admitted instruction, the kind a program is made of (70_reset_and_hazards.md R121): the read with the always
condition into a register from 0 to 14 (30_encoding.md R75, R76). The write form is never one (R77). -/
def Instr.admitted : Instr → Bool
  | .mrcIdMmfr1 c t => wellFormedCond c && wellFormedRt t
  | .mcrIdMmfr1Refused _ _ => false

end Sys2Proof
end

