-- ==== Sys2Proof/Decode.lean ====
section
/-! DEFINITION. The binary layer of 30_encoding.md (R69 to R71, R74, R80), the byte layout of 20_memory.md R58, and
the encoder. The bit positions are the spec's general knowledge GK10, GK11 and GK18 (log 13). -/

namespace Sys2Proof

/-! ### The tuple layer (R68) -/

/-- The one location of `ID_MMFR1` (30_encoding.md R68, 20_memory.md R54). -/
def idMmfr1Tuple : SysRegTuple :=
  { coproc := 0b1111#4, opc1 := 0b000#3, crn := 0b0000#4, crm := 0b0001#4, opc2 := 0b101#3 }

/-- The always condition as the 4-bit field carries it (30_encoding.md R75). -/
def condAL : BitVec 4 := 0b1110#4

/-- `IsIDMMFR1Read(i)` (30_encoding.md R68). -/
def AccessRecord.isIdMmfr1Read (r : AccessRecord) : Bool :=
  r.dir == .mrc && r.loc.coproc == 0b1111#4 && r.loc.opc1 == 0b000#3 && r.loc.crn == 0b0000#4 &&
    r.loc.crm == 0b0001#4 && r.loc.opc2 == 0b101#3

/-- The tuple-layer record an instruction stands for. -/
def Instr.record : Instr → AccessRecord
  | .mrcIdMmfr1 c t => { dir := .mrc, cond := c, loc := idMmfr1Tuple, t := t }
  | .mcrIdMmfr1Refused c t => { dir := .mcr, cond := c, loc := idMmfr1Tuple, t := t }

/-! ### Match and mask (R71, R77) -/

/-- The fixed bits of either form of access to this register (30_encoding.md R71, R77). -/
def accessMask : InstrSet → Word
  | .a32 => 0x0FFF0FFF#32
  | .t32 => 0xFFFF0FFF#32

/-- What the fixed bits of a read are (30_encoding.md R71). -/
def readMatch : InstrSet → Word
  | .a32 => 0x0E100FB1#32
  | .t32 => 0xEE100FB1#32

/-- What the fixed bits of the write form are (30_encoding.md R77). -/
def writeMatch : InstrSet → Word
  | .a32 => 0x0E000FB1#32
  | .t32 => 0xEE000FB1#32

/-- `t = w[15:12]` (30_encoding.md R71). -/
def rtOf (w : Word) : Fin 16 := (w.extractLsb' 12 4).toFin

/-- The condition of a word: `w[31:28]` in A32; always in T32, where no IT block can exist (30_encoding.md R71, R75). -/
def condOf : InstrSet → Word → BitVec 4
  | .a32, w => w.extractLsb' 28 4
  | .t32, _ => condAL

/-- The instruction of the opcode table that a 32-bit word spells, for T32 the word `hw1:hw2` (30_encoding.md R71,
R77); every other word is `Refused(not_this_register)` (R78). A form with a condition other than always or with
`Rt` 15 is the instruction whose meaning refuses it under R80's name (log 8). -/
def decode (is : InstrSet) (w : Word) : Except RefusedReason Instr :=
  if w &&& accessMask is = writeMatch is then .ok (.mcrIdMmfr1Refused (condOf is w) (rtOf w))
  else if w &&& accessMask is = readMatch is then .ok (.mrcIdMmfr1 (condOf is w) (rtOf w))
  else .error .notThisRegister

/-- The decoder's verdicts in the order it tests them: the table of 30_encoding.md R80, row by row. `.ok t` is the
verdict `MRC_ID_MMFR1(t)`. -/
def verdict (is : InstrSet) (w : Word) : Except RefusedReason (Fin 16) :=
  if w &&& accessMask is = writeMatch is then .error .writeForm
  else if w &&& accessMask is ≠ readMatch is then .error .notThisRegister
  else if condOf is w ≠ 0b1110#4 then .error .condition
  else if w.extractLsb' 12 4 = 0b1111#4 then .error .rtIs15
  else .ok (rtOf w)

/-- The same verdicts at the tuple layer, on a record of the syntax line (30_encoding.md R68, R75 to R78). -/
def recordVerdict (r : AccessRecord) : Except RefusedReason (Fin 16) :=
  if r.loc ≠ idMmfr1Tuple then .error .notThisRegister
  else if r.dir = .mcr then .error .writeForm
  else if r.cond ≠ condAL then .error .condition
  else if r.t.val = 15 then .error .rtIs15
  else .ok r.t

/-! ### Bytes (R58, R74) -/

/-- A word's bytes in memory, low address first: one little-endian word in A32; two little-endian halfwords, `hw1` at
the lower address, in T32 (20_memory.md R58). -/
def bytesOfWord (is : InstrSet) (w : Word) : List Byte :=
  match is with
  | .a32 => [w.extractLsb' 0 8, w.extractLsb' 8 8, w.extractLsb' 16 8, w.extractLsb' 24 8]
  | .t32 => [w.extractLsb' 16 8, w.extractLsb' 24 8, w.extractLsb' 0 8, w.extractLsb' 8 8]

/-- A halfword from its two bytes, low address first (20_memory.md R58). -/
def halfword (low high : Byte) : BitVec 16 := high ++ low

/-- `hw1:hw2`: the first operand is the more significant part (00_scope.md R7). -/
def wordOfHalves (upper lower : BitVec 16) : Word := upper ++ lower

/-- How a decoder tells that this instruction is 32 bits long: `hw1[15:11] == 0b11101` (30_encoding.md R74). -/
def thumb32 (hw1 : BitVec 16) : Bool := hw1.extractLsb' 11 5 == 0b11101#5

/-- Why bytes give no instruction. -/
inductive DecodeError where
  /-- The bytes spell something the decoder declines by name (30_encoding.md R80). -/
  | rejected (r : RefusedReason)
  /-- The bytes end before an instruction is complete. -/
  | truncated
deriving DecidableEq, Repr

/-- A decoded word with the bytes that follow it. -/
def decodeWordThen (is : InstrSet) (w : Word) (rest : List Byte) : Except DecodeError (Instr × List Byte) :=
  match decode is w with
  | .ok i => .ok (i, rest)
  | .error r => .error (.rejected r)

/-- Decoding total on any bytes, low address first: the instruction and the bytes after it, or the reason there is
none. In T32 the second halfword is looked at only when the first announces it (30_encoding.md R74; log 8). -/
def decodeBytes (is : InstrSet) (bytes : List Byte) : Except DecodeError (Instr × List Byte) :=
  match is, bytes with
  | .a32, b0 :: b1 :: b2 :: b3 :: rest =>
    decodeWordThen .a32 (wordOfHalves (halfword b2 b3) (halfword b0 b1)) rest
  | .t32, b0 :: b1 :: rest =>
    if thumb32 (halfword b0 b1) then
      match rest with
      | b2 :: b3 :: rest' => decodeWordThen .t32 (wordOfHalves (halfword b0 b1) (halfword b2 b3)) rest'
      | _ => .error .truncated
    else .error (.rejected .notThisRegister)
  | _, _ => .error .truncated

/-! ### The encoder (R69, R70) -/

/-- Bit 20 in A32, bit 4 of `hw1` in T32: 1 for `MRC`, 0 for `MCR` (30_encoding.md R69, R77). -/
def Direction.bit : Direction → BitVec 1
  | .mrc => 1#1
  | .mcr => 0#1

/-- The `Rt` field of a register number. -/
def rtField (t : Fin 16) : BitVec 4 := BitVec.ofFin t

/-- The A32 word of a record, field by field (30_encoding.md R69). -/
def AccessRecord.toA32 (r : AccessRecord) : Word :=
  r.cond ++ 0b1110#4 ++ r.loc.opc1 ++ r.dir.bit ++ r.loc.crn ++ rtField r.t ++ r.loc.coproc ++ r.loc.opc2 ++ 1#1 ++
    r.loc.crm

/-- The first T32 halfword of a record (30_encoding.md R70). -/
def AccessRecord.toHw1 (r : AccessRecord) : BitVec 16 :=
  0b11101110#8 ++ r.loc.opc1 ++ r.dir.bit ++ r.loc.crn

/-- The second T32 halfword of a record (30_encoding.md R70). -/
def AccessRecord.toHw2 (r : AccessRecord) : BitVec 16 :=
  rtField r.t ++ r.loc.coproc ++ r.loc.opc2 ++ 1#1 ++ r.loc.crm

/-- The word of a record: in T32 `hw1:hw2`, which carries no condition field (30_encoding.md R69, R70). -/
def AccessRecord.toWord (is : InstrSet) (r : AccessRecord) : Word :=
  match is with
  | .a32 => r.toA32
  | .t32 => r.toHw1 ++ r.toHw2

/-- The fixed bits of the two layouts: `w[27:24] == 0b1110` (in T32 `hw1[15:8] == 0b11101110`) and `w[4] == 1`
(30_encoding.md R69, R70). -/
def hasAccessShape (is : InstrSet) (w : Word) : Bool :=
  (match is with
    | .a32 => w.extractLsb' 24 4 == 0b1110#4
    | .t32 => w.extractLsb' 24 8 == 0b11101110#8) && w.extractLsb' 4 1 == 1#1

/-- The record a word spells by the layouts of 30_encoding.md R69 and R70, for any location of the encoding space;
`none` where the layout's fixed bits differ. -/
def recordOfWord (is : InstrSet) (w : Word) : Option AccessRecord :=
  if hasAccessShape is w then
    some
      { dir := if w.extractLsb' 20 1 = 1#1 then .mrc else .mcr
        cond := condOf is w
        loc :=
          { coproc := w.extractLsb' 8 4
            opc1 := w.extractLsb' 21 3
            crn := w.extractLsb' 16 4
            crm := w.extractLsb' 0 4
            opc2 := w.extractLsb' 5 3 }
        t := rtOf w }
  else none

/-- The word of an instruction. -/
def encode (is : InstrSet) (i : Instr) : Word := i.record.toWord is

/-- The bytes of an instruction, low address first. -/
def encodeBytes (is : InstrSet) (i : Instr) : List Byte := bytesOfWord is (encode is i)

/-- The forms an instruction set can spell: T32 has no condition field, so only the always form (30_encoding.md R70,
R75). -/
def Instr.encodableIn (i : Instr) : InstrSet → Bool
  | .a32 => true
  | .t32 => i.record.cond == condAL

/-! ### Assembler spelling (R73) -/

/-- The register spellings of 30_encoding.md R73: `r0` to `r12`, `sp`, `lr`; 15 has no admitted spelling (log 19). -/
def regName (t : Fin 16) : Option String :=
  ["r0", "r1", "r2", "r3", "r4", "r5", "r6", "r7", "r8", "r9", "r10", "r11", "r12", "sp", "lr"][t.val]?

/-- `MRC p15, 0, <Rt>, c0, c1, 5`: the spelling of an admitted form; a refused form has none (30_encoding.md R73). -/
def Instr.assembler : Instr → Option String
  | .mrcIdMmfr1 c t => if c = condAL then (regName t).map fun r => "MRC p15, 0, " ++ r ++ ", c0, c1, 5" else none
  | .mcrIdMmfr1Refused _ _ => none

/-! ### The host's question about one table word -/

/-- The instruction this decoder reads from a table word of `nbits` bits: the A32 bytes of the word, decoded. The
table numbers a T32 word `hw1:hw2`, and such a number with the always condition is the A32 word of the same
instruction (30_encoding.md R71; log 10). -/
def decodeTableWord (nbits w : Nat) : Option Instr :=
  match decodeBytes .a32 (bytesOfWord .a32 (BitVec.ofNat 32 (w % 2 ^ nbits))) with
  | .ok (i, _) => some i
  | .error _ => none

end Sys2Proof
end

