-- ==== Sys2Proof/Machine/Flags.lean ====
section
/-! DEFINITION. Conditions. No rule reads or writes a condition flag (10_state.md R51), so the only thing the spec says
of flags is which condition field is admitted. -/

namespace Sys2Proof.Machine

/-- Only the always-executed form is admitted; `0b1111` is not always (30_encoding.md R75). -/
def conditionAdmitted (c : BitVec 4) : Bool := c == condAL

end Sys2Proof.Machine
end

