-- ==== Sys2Proof/Machine/IdMmfr1.lean ====
section
/-! DEFINITION. What the 32 bits of `ID_MMFR1` say: the eight fields (10_state.md R13 to R36), the two predicates on
its value (R49, R50), and the branch-predictor obligation of 70_reset_and_hazards.md R114 to R118, as data. -/

namespace Sys2Proof.Machine

/-! ### The fields (R14) -/

/-- The eight fields, from bit 31 down (10_state.md R14). -/
inductive Field where
  | bpred
  | l1TstCln
  | l1Uni
  | l1Hvd
  | l1UniSW
  | l1HvdSW
  | l1UniVA
  | l1HvdVA
deriving DecidableEq, Repr

/-- All eight, in the order of the register diagram. -/
def Field.all : List Field := [.bpred, .l1TstCln, .l1Uni, .l1Hvd, .l1UniSW, .l1HvdSW, .l1UniVA, .l1HvdVA]

/-- The lowest bit of a field; each is four bits wide (10_state.md R14). -/
def Field.low : Field → Nat
  | .bpred => 28
  | .l1TstCln => 24
  | .l1Uni => 20
  | .l1Hvd => 16
  | .l1UniSW => 12
  | .l1HvdSW => 8
  | .l1UniVA => 4
  | .l1HvdVA => 0

/-- The extraction column of 10_state.md R14. -/
def Field.get (f : Field) (v : Word) : BitVec 4 := v.extractLsb' f.low 4

/-- The inverse of extraction: the register whose fields are given (10_state.md R14). -/
def Field.compose (g : Field → BitVec 4) : Word :=
  g .bpred ++ g .l1TstCln ++ g .l1Uni ++ g .l1Hvd ++ g .l1UniSW ++ g .l1HvdSW ++ g .l1UniVA ++ g .l1HvdVA

/-- The long names of the diagram (10_state.md R14). -/
def Field.longName : Field → String
  | .bpred => "Branch Predictor"
  | .l1TstCln => "Level 1 cache Test and Clean"
  | .l1Uni => "Level 1 Unified cache"
  | .l1Hvd => "Level 1 Harvard cache"
  | .l1UniSW => "Level 1 Unified cache by Set/Way"
  | .l1HvdSW => "Level 1 Harvard cache by Set/Way"
  | .l1UniVA => "Level 1 Unified cache by Virtual Address"
  | .l1HvdVA => "Level 1 Harvard cache by Virtual Address"

/-- The kind of cache a field speaks for: `some true` where it describes a cache of kind `k`, `some false` where it
describes the other kind, `none` where `k` is unknown. Nothing ties the field's value to it (10_state.md R24; log
17). -/
def Field.describes (k : L1Kind) : Field → Option Bool
  | .bpred => some true
  | .l1TstCln => some true
  | .l1Uni | .l1UniSW | .l1UniVA =>
    match k with
    | .unified => some true
    | .harvard => some false
    | .unknown => none
  | .l1Hvd | .l1HvdSW | .l1HvdVA =>
    match k with
    | .unified => some false
    | .harvard => some true
    | .unknown => none

/-! ### Defined, reserved and permitted values -/

/-- The defined values of a field: the tables of 10_state.md R15, R18, R20, R23, R26, R28, R30, R32, as R49 lists them. -/
def Field.definedValues : Field → List (BitVec 4)
  | .bpred => [0b0000#4, 0b0001#4, 0b0010#4, 0b0011#4, 0b0100#4]
  | .l1TstCln => [0b0000#4, 0b0001#4, 0b0010#4]
  | .l1Uni => [0b0000#4, 0b0001#4, 0b0010#4]
  | .l1Hvd => [0b0000#4, 0b0001#4, 0b0010#4, 0b0011#4]
  | .l1UniSW => [0b0000#4, 0b0001#4, 0b0010#4, 0b0011#4]
  | .l1HvdSW => [0b0000#4, 0b0001#4, 0b0010#4, 0b0011#4]
  | .l1UniVA => [0b0000#4, 0b0001#4, 0b0010#4]
  | .l1HvdVA => [0b0000#4, 0b0001#4, 0b0010#4]

/-- The values permitted in Armv8-A (10_state.md R16, R19, R21, R25, R27, R29, R31, R33, R50). -/
def Field.permittedValues : Field → List (BitVec 4)
  | .bpred => [0b0010#4, 0b0011#4, 0b0100#4]
  | .l1TstCln => [0b0000#4]
  | .l1Uni => [0b0000#4]
  | .l1Hvd => [0b0000#4]
  | .l1UniSW => [0b0000#4]
  | .l1HvdSW => [0b0000#4]
  | .l1UniVA => [0b0000#4]
  | .l1HvdVA => [0b0000#4]

/-- "All other values are reserved." (10_state.md R16, R19, R21, R25, R27, R29, R31, R33). -/
def Field.reserved (f : Field) (b : BitVec 4) : Bool := !f.definedValues.contains b

/-- `Defined(v)` (10_state.md R49). -/
def definedValue (v : Word) : Bool := Field.all.all fun f => f.definedValues.contains (f.get v)

/-- `PermittedArmv8A(v)` (10_state.md R50). -/
def permittedArmv8A (v : Word) : Bool := Field.all.all fun f => f.permittedValues.contains (f.get v)

/-- The configuration check on `IDMMFR1_VALUE`: `Defined`, and under `ARMV8A` also `PermittedArmv8A` (00_scope.md R6,
10_state.md R35, U2, U8). -/
def configAdmitted (c : Config) : Bool :=
  definedValue c.idmmfr1Value && (!c.armv8a || permittedArmv8A c.idmmfr1Value)

/-! ### BPred (R15 to R17) -/

/-- The five meanings of BPred (10_state.md R15). -/
inductive BPredMeaning where
  /-- 0b0000: "No branch predictor, or no MMU present. Implies a fixed MPU configuration." -/
  | noPredictorOrNoMMU
  /-- 0b0001: flushing on the five listed kinds of change. -/
  | flushOnListedAndIdChanges
  /-- 0b0010: flushing on the four listed kinds of change. -/
  | flushOnListed
  /-- 0b0011: flushing "only on writing new data to instruction locations". -/
  | flushOnInstrWritesOnly
  /-- 0b0100: "no flushing at any time". -/
  | noFlush
deriving DecidableEq, Repr

/-- The table of 10_state.md R15; a reserved value has no meaning (R35). -/
def bpredMeaning (b : BitVec 4) : Option BPredMeaning :=
  if b = 0b0000#4 then some .noPredictorOrNoMMU
  else if b = 0b0001#4 then some .flushOnListedAndIdChanges
  else if b = 0b0010#4 then some .flushOnListed
  else if b = 0b0011#4 then some .flushOnInstrWritesOnly
  else if b = 0b0100#4 then some .noFlush
  else none

/-- Whether other documents "might give more information about the required maintenance", so that the listed events
must not be taken as all the hardware may require: "For values other than 0b0000 and 0b0100" (10_state.md R17). -/
def moreInformationMayExist (b : BitVec 4) : Bool := b ≠ 0b0000#4 && b ≠ 0b0100#4

/-! ### The Level 1 fields (R18 to R34) -/

/-- The maintenance operations the Level 1 fields name. The source gives names only: no instruction and no effect
(20_memory.md R66). -/
inductive CacheOp where
  | testCleanData
  | testCleanInvalidateData
  | invalidateCache
  | invalidatePredictor
  | cleanCache
  | cleanInvalidateCache
  | invalidateInstr
  | invalidateData
  | invalidateDataInstr
  | cleanData
  | cleanInvalidateData
  | cleanLineSW
  | cleanInvalidateLineSW
  | invalidateLineSW
  | cleanDataLineSW
  | cleanInvalidateDataLineSW
  | invalidateDataLineSW
  | invalidateInstrLineSW
  | cleanLineVA
  | invalidateLineVA
  | cleanInvalidateLineVA
  | invalidatePredictorVA
  | cleanDataLineVA
  | invalidateDataLineVA
  | cleanInvalidateDataLineVA
  | cleanInstrLineVA
deriving DecidableEq, Repr

/-- The source's words for each operation (10_state.md R18 to R32; the last keeps "Clean", 90_conflicts.md C4). -/
def CacheOp.words : CacheOp → String
  | .testCleanData => "Test and clean data cache."
  | .testCleanInvalidateData => "Test, clean, and invalidate data cache."
  | .invalidateCache => "Invalidate cache, including branch predictor if appropriate."
  | .invalidatePredictor => "Invalidate branch predictor, if appropriate."
  | .cleanCache => "Clean cache, using a recursive model that uses the cache dirty status bit."
  | .cleanInvalidateCache => "Clean and invalidate cache, using a recursive model that uses the cache dirty status bit."
  | .invalidateInstr => "Invalidate instruction cache, including branch predictor if appropriate."
  | .invalidateData => "Invalidate data cache."
  | .invalidateDataInstr => "Invalidate data cache and instruction cache, including branch predictor if appropriate."
  | .cleanData => "Clean data cache, using a recursive model that uses the cache dirty status bit."
  | .cleanInvalidateData =>
    "Clean and invalidate data cache, using a recursive model that uses the cache dirty status bit."
  | .cleanLineSW => "Clean cache line by set/way."
  | .cleanInvalidateLineSW => "Clean and invalidate cache line by set/way."
  | .invalidateLineSW => "Invalidate cache line by set/way."
  | .cleanDataLineSW => "Clean data cache line by set/way."
  | .cleanInvalidateDataLineSW => "Clean and invalidate data cache line by set/way."
  | .invalidateDataLineSW => "Invalidate data cache line by set/way."
  | .invalidateInstrLineSW => "Invalidate instruction cache line by set/way."
  | .cleanLineVA => "Clean cache line by VA."
  | .invalidateLineVA => "Invalidate cache line by VA."
  | .cleanInvalidateLineVA => "Clean and invalidate cache line by VA."
  | .invalidatePredictorVA => "Invalidate branch predictor by VA, if branch predictor is implemented."
  | .cleanDataLineVA => "Clean data cache line by VA."
  | .invalidateDataLineVA => "Invalidate data cache line by VA."
  | .cleanInvalidateDataLineVA => "Clean and invalidate data cache line by VA."
  | .cleanInstrLineVA => "Clean instruction cache line by VA."

/-- The operations a field's table lists beside the value `n` itself: for the rows "As for ..., and adds:" only what the
row adds (10_state.md R18, R20, R23, R26, R28, R30, R32). -/
def rowOps : Field → Nat → List CacheOp
  | .l1TstCln, 1 => [.testCleanData]
  | .l1TstCln, 2 => [.testCleanInvalidateData]
  | .l1Uni, 1 => [.invalidateCache, .invalidatePredictor]
  | .l1Uni, 2 => [.cleanCache, .cleanInvalidateCache]
  | .l1Hvd, 1 => [.invalidateInstr, .invalidatePredictor]
  | .l1Hvd, 2 => [.invalidateData, .invalidateDataInstr]
  | .l1Hvd, 3 => [.cleanData, .cleanInvalidateData]
  | .l1UniSW, 1 => [.cleanLineSW]
  | .l1UniSW, 2 => [.cleanInvalidateLineSW]
  | .l1UniSW, 3 => [.invalidateLineSW]
  | .l1HvdSW, 1 => [.cleanDataLineSW, .cleanInvalidateDataLineSW]
  | .l1HvdSW, 2 => [.invalidateDataLineSW]
  | .l1HvdSW, 3 => [.invalidateInstrLineSW]
  | .l1UniVA, 1 => [.cleanLineVA, .invalidateLineVA, .cleanInvalidateLineVA]
  | .l1UniVA, 2 => [.invalidatePredictorVA]
  | .l1HvdVA, 1 => [.cleanDataLineVA, .invalidateDataLineVA, .cleanInvalidateDataLineVA, .cleanInstrLineVA]
  | .l1HvdVA, 2 => [.invalidatePredictorVA]
  | _, _ => []

/-- The full set of operations a defined value of a Level 1 field reports as supported: its own row and every row below
it (10_state.md R34). A reserved value has no meaning (R35), and BPred is not of this kind (R34): `none`. -/
def supportedOps (f : Field) (b : BitVec 4) : Option (List CacheOp) :=
  if f = .bpred || f.reserved b then none
  else some ((List.range (b.toNat + 1)).flatMap (rowOps f))

/-- Whether an operation has a branch-predictor part, given `BP_IMPLEMENTED`: the operations qualified "if appropriate"
or "if branch predictor is implemented" (10_state.md R22, D23; log 17). -/
def CacheOp.hasPredictorPart (bpImplemented : Bool) : CacheOp → Bool
  | .invalidateCache | .invalidatePredictor | .invalidateInstr | .invalidateDataInstr | .invalidatePredictorVA =>
    bpImplemented
  | _ => false

/-! ### The branch-predictor obligation (70_reset_and_hazards.md R114 to R118) -/

/-- The events of 70_reset_and_hazards.md R116. -/
inductive Event where
  | stageToggled
  | instrWritten
  | tablesWritten
  | ttbChanged (withId : Bool)
  | idChanged
deriving DecidableEq, Repr

/-- The four values of `BPFlushRequired` (70_reset_and_hazards.md R118). -/
inductive Requirement where
  | required
  | notRequired
  | notListed
  | unstated
deriving DecidableEq, Repr

/-- `BPFlushRequired(b, e)`; no value for a reserved `b` (70_reset_and_hazards.md R118). -/
def bpFlushRequired (b : BitVec 4) (e : Event) : Option Requirement :=
  match bpredMeaning b with
  | none => none
  | some .noPredictorOrNoMMU => some .unstated
  | some .flushOnListedAndIdChanges => some .required
  | some .flushOnListed =>
    match e with
    | .stageToggled | .instrWritten | .tablesWritten | .ttbChanged false => some .required
    | .ttbChanged true | .idChanged => some .notListed
  | some .flushOnInstrWritesOnly =>
    match e with
    | .instrWritten => some .required
    | .stageToggled | .tablesWritten | .ttbChanged _ | .idChanged => some .notRequired
  | some .noFlush => some .notRequired

/-- How a user of the table takes a requirement: `NotListed` and `Unstated` as `Required` (70_reset_and_hazards.md R118,
D25). -/
def Requirement.mustFlush : Requirement → Bool
  | .notRequired => false
  | .required | .notListed | .unstated => true

/-- The translation registers the BPred meanings name (10_state.md R15). -/
inductive TTBRegister where
  | ttbr0
  | ttbr1
  | ttbcr
deriving DecidableEq, Repr

/-- The identifiers the BPred meanings name (10_state.md R15). -/
inductive Identifier where
  | contextId
  | asid
  | fcseProcessId
deriving DecidableEq, Repr

/-- Whether a change of an identifier counts for the events: the FCSE ProcessID drops out where `FCSE_SUPPORTED` is false
(70_reset_and_hazards.md R117). -/
def Identifier.counts (fcseSupported : Bool) : Identifier → Bool
  | .contextId | .asid => true
  | .fcseProcessId => fcseSupported

/-- The event that a change of some translation registers together with some identifiers is (70_reset_and_hazards.md
R116, R117). That the identifiers are the corresponding ones is the caller's to say, as U12 has it (log 18). -/
def eventOfChange (fcseSupported : Bool) (ttbs : List TTBRegister) (ids : List Identifier) : Option Event :=
  let withId := ids.any (Identifier.counts fcseSupported)
  if !ttbs.isEmpty then some (.ttbChanged withId)
  else if withId then some .idChanged
  else none

end Sys2Proof.Machine
end

