-- ==== Sys2Proof/Machine/State.lean ====
section
/-! DEFINITION. The machine's state as plain data (10_state.md), the reasons a step stops, and the state after reset. -/

namespace Sys2Proof.Machine

/-- The Exception level in `PSTATE.EL`: the four values of 10_state.md R41. -/
inductive EL where
  | el0
  | el1
  | el2
  | el3
deriving DecidableEq, Repr, Inhabited

/-- The machine's state: everything 10_state.md names, and the program text of 70_reset_and_hazards.md R121. -/
structure State where
  /-- The implementation parameters (00_scope.md R6), `ID_MMFR1`'s value among them; no step writes them (log 1). -/
  cfg : Config
  /-- The general registers `x[0]` to `x[14]` (10_state.md R48; log 5). -/
  x : Vector Word 15
  /-- Which general registers something has written: the others hold "no value" in the spec's sense (10_state.md R48,
  R52; log 4). -/
  written : Vector Bool 15
  /-- The address of the instruction being executed (10_state.md R40). -/
  pc : Word
  /-- `PSTATE.EL` (10_state.md R41). -/
  el : EL
  /-- The result of `EL2Enabled()` (10_state.md R42). -/
  el2Enabled : Bool
  /-- The result of `ELUsingAArch32(EL2)` (10_state.md R43). -/
  el2UsingAArch32 : Bool
  /-- `HSTR_EL2.T0`; `true` is the bit value 1 (10_state.md R44). -/
  hstrEL2T0 : Bool
  /-- `HSTR.T0` (10_state.md R45). -/
  hstrT0 : Bool
  /-- `HCR_EL2.TID3` (10_state.md R46). -/
  hcrEL2TID3 : Bool
  /-- `HCR.TID3` (10_state.md R47). -/
  hcrTID3 : Bool
  /-- The program text: the bytes that stand in memory, by rising address (20_memory.md R58 to R60; log 7). -/
  mem : List Host.Cell
deriving DecidableEq, Repr, Inhabited

/-- The outcome of one execution of `MRC_ID_MMFR1` (00_scope.md R9). -/
inductive AccessOutcome where
  /-- The register is copied to `x[t]`. -/
  | read
  /-- The source's `UNDEFINED`. -/
  | undefined
  /-- The source's `AArch64.AArch32SystemAccessTrap(EL2, ec)`. -/
  | trapEL2AArch64 (ec : BitVec 6)
  /-- The source's `AArch32.TakeHypTrapException(ec)`. -/
  | trapHyp (ec : BitVec 6)
deriving DecidableEq, Repr

/-- Why the machine stops with a fault. The first three are the terminal outcomes of 60_exceptions.md R93. -/
inductive Fault where
  /-- Raised by `MRC_ID_MMFR1` when the register is absent or at EL0 (60_exceptions.md R94). Safe: the spec makes it
  terminal, so nothing is claimed of a handler (log 11). -/
  | undefined
  /-- Raised by `MRC_ID_MMFR1` at EL1 under an AArch64 EL2 that traps it; carries `(ec, t)` (60_exceptions.md R95,
  R98). Safe, as above. -/
  | trapEL2AArch64 (ec : BitVec 6) (t : Fin 16)
  /-- Raised by `MRC_ID_MMFR1` at EL1 under an AArch32 EL2 that traps it; carries `(ec, t)` (60_exceptions.md R96,
  R98). Safe, as above. -/
  | trapHyp (ec : BitVec 6) (t : Fin 16)
  /-- Raised by `step` where no complete instruction stands at `pc`: the program text has ended, and the spec "says
  nothing of what the PE fetches" there (70_reset_and_hazards.md R121). Safe (log 7). -/
  | noInstruction
deriving DecidableEq, Repr

/-- Why the model declines to go on: the spec's fifth outcome `Refused` (00_scope.md R9). -/
inductive Refusal where
  /-- Raised by `exec`'s arms that have no meaning yet (none is left). Safe. -/
  | notModelled (mnemonic : String)
  /-- Raised by the decoder and by the meanings for the forms of 30_encoding.md R80. Safe. -/
  | form (reason : RefusedReason)
  /-- Raised by `step`: the register's value fails the configuration check (10_state.md R35, U2, U8). Safe. -/
  | configuration
  /-- Raised by `step`: `pc` is not aligned for the instruction set (20_memory.md R59). Safe. -/
  | pcMisaligned
deriving DecidableEq, Repr

/-- What a step or a meaning answers. -/
abbrev Result := Host.Outcome State Fault Refusal

/-- The parameters of the reset state. `ARMV8A` is decision D1's; the spec states no other value (log 2). -/
def resetConfig : Config :=
  { idmmfr1Value := 0x40000000#32
    el1CanUseAArch32 := true
    fcseSupported := false
    bpImplemented := false
    l1Kind := .unknown
    armv8a := true
    instrSet := .a32
    dataEndian := .little }

/-- The machine right after reset. 10_state.md R52 gives a value for `ID_MMFR1` only (the parameter) and calls the
registers unwritten; every other value is the launch of the worked example of 40_sysreg_read.md R81, zero where that
example says nothing (log 3, log 4). No program text is listed (log 10). -/
def State.reset : State :=
  { cfg := resetConfig
    x := Vector.replicate 15 0#32
    written := Vector.replicate 15 false
    pc := 0x8000#32
    el := .el1
    el2Enabled := false
    el2UsingAArch32 := false
    hstrEL2T0 := false
    hstrT0 := false
    hcrEL2TID3 := false
    hcrTID3 := false
    mem := [] }

end Sys2Proof.Machine
end

