-- ==== Sys2Proof/Machine/Operands.lean ====
section
/-! DEFINITION. Operands (30_encoding.md R72, R76) and the extension primitives of 00_scope.md R8. -/

namespace Sys2Proof.Machine

/-- The general register the `Rt` operand names: its unsigned value, 0 to 14; 15 names none (30_encoding.md R72, R76). -/
def destOf (t : Fin 16) : Option (Fin 15) :=
  if h : t.val < 15 then some ⟨t.val, h⟩ else none

/-- `zext_N(v)` (00_scope.md R8; used by no rule, R72). -/
def zext (n : Nat) {m : Nat} (v : BitVec m) : BitVec n := v.zeroExtend n

/-- `sext_N(v)` (00_scope.md R8; used by no rule, R72). -/
def sext (n : Nat) {m : Nat} (v : BitVec m) : BitVec n := v.signExtend n

end Sys2Proof.Machine
end

