-- ==== Sys2Proof/Machine/Ops.lean ====
section
/-! DEFINITION. The named operations: memory, registers, the System register space, raising an outcome, fetch. -/

namespace Sys2Proof.Machine

/-! ### Memory (20_memory.md R58 to R60; log 7) -/

/-- What an address that is not listed reads as: no value (log 7). -/
def unlisted : Option Byte := none

/-- The byte at an address. -/
def Memory.read : List Host.Cell → Nat → Option Byte
  | [], _ => unlisted
  | (k, v) :: m, a => if k = a then some v else Memory.read m a

/-- The memory with one byte stored; addresses stay strictly rising. -/
def Memory.write : List Host.Cell → Nat → Byte → List Host.Cell
  | [], a, b => [(a, b)]
  | (k, v) :: m, a, b =>
    if a < k then (a, b) :: (k, v) :: m
    else if a = k then (a, b) :: m
    else (k, v) :: Memory.write m a b

/-- The canonical form: addresses strictly rising, inside a 32-bit address space (the model's width: log 21). No listed byte
can equal what an unlisted address reads as, which is no value. -/
abbrev Memory.wf (m : List Host.Cell) : Prop :=
  m.Pairwise (fun p q => p.1 < q.1) ∧ ∀ c ∈ m, c.1 < 2 ^ 32

/-- The address `n` bytes above another, modulo 2^32. DESIGN CHOICE: R40 says so of `pc` only (log 8 for fetched bytes, log
21 for the rest). -/
def addrPlus (a : Word) (n : Nat) : Nat := (a + BitVec.ofNat 32 n).toNat

/-- Stores bytes from an address up. DESIGN CHOICE: the byte above 0xFFFFFFFF is the byte at 0 (log 21). -/
def Memory.writeBytes (m : List Host.Cell) (a : Word) : List Byte → List Host.Cell
  | [] => m
  | b :: bs => Memory.writeBytes (Memory.write m a.toNat b) (a + 1#32) bs

/-- The `n` bytes from an address up, or none if one of them holds no value. DESIGN CHOICE: the byte above 0xFFFFFFFF is the
byte at 0 (log 21). -/
def Memory.readBytes (m : List Host.Cell) (a : Word) : Nat → Option (List Byte)
  | 0 => some []
  | n + 1 =>
    match Memory.read m a.toNat, Memory.readBytes m (a + 1#32) n with
    | some b, some bs => some (b :: bs)
    | _, _ => none

/-- The number that bytes spell, least significant byte first. -/
def natOfBytes : List Byte → Nat
  | [] => 0
  | b :: bs => b.toNat + 256 * natOfBytes bs

/-- The `n` bytes of a number, least significant byte first. -/
def bytesOfNat : Nat → Nat → List Byte
  | 0, _ => []
  | n + 1, v => BitVec.ofNat 8 v :: bytesOfNat n (v / 256)

/-- Bytes in the order `DATA_ENDIAN` gives them (20_memory.md R58; log 15). -/
def inDataOrder (e : Endian) (bs : List Byte) : List Byte :=
  match e with
  | .little => bs
  | .big => bs.reverse

/-- `MemRead(addr, n)` (00_scope.md R8): used by no rule (20_memory.md R56; log 15). DESIGN CHOICE: `addr` has 32 bits, and a
read that runs past the top of the address space goes on at 0 (log 21). -/
def memRead (s : State) (a : Word) (n : Nat) : Option (BitVec (8 * n)) :=
  (Memory.readBytes s.mem a n).map fun bs => BitVec.ofNat (8 * n) (natOfBytes (inDataOrder s.cfg.dataEndian bs))

/-- `MemWrite(addr, n, v)` (00_scope.md R8): used by no rule (20_memory.md R56; log 15). DESIGN CHOICE: `addr` has 32 bits, and
a write that runs past the top of the address space goes on at 0 (log 21), and the bytes stored are those a later fetch
reads, at once and whatever BPred is, which 20_memory.md R65 leaves open (log 24). -/
def memWrite (s : State) (a : Word) (n : Nat) (v : BitVec (8 * n)) : State :=
  { s with mem := Memory.writeBytes s.mem a (inDataOrder s.cfg.dataEndian (bytesOfNat n v.toNat)) }

/-! ### Registers -/

/-- `x[i]` (00_scope.md R8). -/
def State.readX (s : State) (i : Fin 15) : Word := s.x[i]

/-- `x[i] <- v` (00_scope.md R8): all 32 bits of one register, which from then on holds a value (10_state.md R48). -/
def State.writeX (s : State) (i : Fin 15) (v : Word) : State :=
  { s with x := s.x.set i v, written := s.written.set i true }

/-- `pc <- pc + 4`, modulo 2^32 (10_state.md R40; log 6). -/
def State.advance (s : State) : State := { s with pc := s.pc + 4#32 }

/-- `ID_MMFR1`: the constant `IDMMFR1_VALUE` (10_state.md R39). -/
def State.idMmfr1 (s : State) : Word := s.cfg.idmmfr1Value

/-- `ID_MMFR1_EL1[31:0]`: "one and the same 32 bits of state" (10_state.md R37). DESIGN CHOICE: it is `IDMMFR1_VALUE` also where
`ID_MMFR1` itself is absent, which R37 and R38 leave open (log 23). -/
def State.idMmfr1EL1Low (s : State) : Word := s.idMmfr1

/-- The register as part of the state: present only when EL1 is capable of using AArch32 (10_state.md R38). -/
def State.idMmfr1Present (s : State) : Option Word := if s.cfg.el1CanUseAArch32 then some s.idMmfr1 else none

/-- `SysRead(tuple)` (00_scope.md R8): `ID_MMFR1` is at exactly one location of the encoding space, and every other is
outside the spec, `none` (20_memory.md R54, R55). DEDUCED: `none` there too where the register is absent, since it is then
not part of the state (10_state.md R38; log 22). -/
def sysRead (s : State) (loc : SysRegTuple) : Option Word := if loc = idMmfr1Tuple then s.idMmfr1Present else none

/-- `BPFlush`: "an uninterpreted action with no effect on any state the spec holds" (70_reset_and_hazards.md R115). -/
def bpFlush (s : State) : State := s

/-! ### Raising an outcome (60_exceptions.md R93, R101) -/

/-- `raise <Outcome>(info)`: "the instruction ends with the named non-completing outcome and writes nothing further"
(00_scope.md R8). The spec makes every event terminal and takes no entry step (60_exceptions.md R93, R101; log 11). -/
def raise (f : Fault) : Result := .fault f

/-- What ends an access with the given outcome at destination operand `t`: the trap faults carry `(ec, t)` and nothing
else (60_exceptions.md R98); a read goes on. -/
def AccessOutcome.fault? (o : AccessOutcome) (t : Fin 16) : Option Fault :=
  match o with
  | .read => none
  | .undefined => some .undefined
  | .trapEL2AArch64 ec => some (.trapEL2AArch64 ec t)
  | .trapHyp ec => some (.trapHyp ec t)

/-- The word a fuller model would record for a trapped access of instruction word `w`: the open parameter `SYNDROME`
applied to `ec` (60_exceptions.md R98); `Undefined` has no code (R94). No step calls it (log 11). -/
def syndromeOf (f : Fault) (w : Word) : Option Word :=
  match f with
  | .undefined => none
  | .trapEL2AArch64 ec _ => some (Config.syndrome ec w)
  | .trapHyp ec _ => some (Config.syndrome ec w)
  | .noInstruction => none

/-- The syndrome word as the architecture is known to lay it out for class 0x03: `EC` [31:26], `IL` [25] = 1, `CV` [24] = 1,
`COND` [23:20], `Opc2` [19:17], `Opc1` [16:14], `CRn` [13:10], `Rt` [9:5], `CRm` [4:1], `Direction` [0] (1 for a read).
PRESUMED: general knowledge GK15, informative only and bound to no rule (60_exceptions.md R98; log 11). -/
def informativeSyndrome (ec : BitVec 6) (r : AccessRecord) : Word :=
  ec ++ 1#1 ++ 1#1 ++ r.cond ++ r.loc.opc2 ++ r.loc.opc1 ++ r.loc.crn ++ (rtField r.t).zeroExtend 5 ++ r.loc.crm ++
    r.dir.bit

/-- `UNDEF_ENTRY`: the open state transformer for `Undefined`, read by no rule (00_scope.md R6, 60_exceptions.md R101;
log 11). -/
opaque undefEntry : State → State

/-- `TRAP_ENTRY`: the open state transformer for the two traps, read by no rule (00_scope.md R6, 60_exceptions.md R101;
log 11). -/
opaque trapEntry : State → State

/-- Where a fuller model would go on after a fault: the two open parameters. No step calls it (log 11). -/
def entryOf (f : Fault) (s : State) : Option State :=
  match f with
  | .undefined => some (undefEntry s)
  | .trapEL2AArch64 _ _ => some (trapEntry s)
  | .trapHyp _ _ => some (trapEntry s)
  | .noInstruction => none

/-! ### Launch checks and fetch -/

/-- `pc` is a multiple of 4 in A32 and of 2 in T32 (20_memory.md R59). -/
def pcAligned (is : InstrSet) (pc : Word) : Bool :=
  match is with
  | .a32 => pc.extractLsb' 0 2 == 0#2
  | .t32 => pc.extractLsb' 0 1 == 0#1

/-- What the model declines about a launch: a configuration that fails its check (10_state.md R35), then a misaligned
`pc` (20_memory.md R59). Made at every step; what it looks at is kept by every step (log 12). -/
def launchRefusal (s : State) : Option Refusal :=
  if !configAdmitted s.cfg then some .configuration
  else if !pcAligned s.cfg.instrSet s.pc then some .pcMisaligned
  else none

/-- The bytes before the first that holds no value. -/
def presentPrefix : List (Option Byte) → List Byte
  | some b :: r => b :: presentPrefix r
  | _ => []

/-- The bytes fetched at `pc`: at most four, up to the first that holds no value (20_memory.md R58; log 8).
DESIGN CHOICE: they are the bytes of memory as it stands, with no cache or pipeline between (20_memory.md R65; log 24). -/
def fetchBytes (s : State) : List Byte :=
  presentPrefix [Memory.read s.mem (addrPlus s.pc 0), Memory.read s.mem (addrPlus s.pc 1),
    Memory.read s.mem (addrPlus s.pc 2), Memory.read s.mem (addrPlus s.pc 3)]

/-- What a decoding that gave no instruction stops the machine with. -/
def stopOfDecodeError : DecodeError → Result
  | .rejected r => .refused (.form r)
  | .truncated => .fault .noInstruction

/-- The bytes of a word stored at `pc`, in the byte order of the instruction set (20_memory.md R58). -/
def placeWord (s : State) (w : Word) : State :=
  { s with mem := Memory.writeBytes s.mem s.pc (bytesOfWord s.cfg.instrSet w) }

/-- The text of a list of instructions placed at `base`, `base + 4`, ... and `pc` at `base`: the launch of a run
(70_reset_and_hazards.md R121). A text that runs past the top of the address space goes on at 0 (log 21). -/
def placeProgram (s : State) (base : Word) (is : List Instr) : State :=
  { s with pc := base, mem := Memory.writeBytes s.mem base (is.flatMap (encodeBytes s.cfg.instrSet)) }

end Sys2Proof.Machine
end

