-- ==== Sys2Proof/Machine/SysregRead.lean ====
section
/-! DEFINITION. The one instruction family, 40_sysreg_read.md: `MRC_ID_MMFR1`, and the write form that is refused. -/

namespace Sys2Proof.Machine

/-- The outcome of the access: the pseudocode of 40_sysreg_read.md R81 in the spec's notation, presence first (R82;
log 20), line by line. The control bits are read as they stand (20_memory.md R63; log 9). -/
def accessOutcome (s : State) : AccessOutcome :=
  if !s.cfg.el1CanUseAArch32 then .undefined
  else
    match s.el with
    | .el0 => .undefined
    | .el1 =>
      if s.el2Enabled && !s.el2UsingAArch32 && s.hstrEL2T0 then .trapEL2AArch64 0x03#6
      else if s.el2Enabled && s.el2UsingAArch32 && s.hstrT0 then .trapHyp 0x03#6
      else if s.el2Enabled && !s.el2UsingAArch32 && s.hcrEL2TID3 then .trapEL2AArch64 0x03#6
      else if s.el2Enabled && s.el2UsingAArch32 && s.hcrTID3 then .trapHyp 0x03#6
      else .read
    | .el2 => .read
    | .el3 => .read

/-- `MRC_ID_MMFR1(t)` (40_sysreg_read.md R81). The refused forms come first, in R80's order (60_exceptions.md R100); on
`Read`, `x[t] <- IDMMFR1_VALUE ; pc <- pc + 4` (R88); on any other outcome, nothing (R87). -/
def execMrcIdMmfr1 (c : BitVec 4) (t : Fin 16) (s : State) : Result :=
  if !conditionAdmitted c then .refused (.form .condition)
  else
    match destOf t with
    | none => .refused (.form .rtIs15)
    | some d =>
      match (accessOutcome s).fault? t with
      | some f => raise f
      | none => .next (s.writeX d s.idMmfr1).advance

/-- `MCR` to the register's tuple: "the spec gives it no meaning and in particular does not let it change `ID_MMFR1`"
(30_encoding.md R77). Refused whatever its operands are. -/
def execMcrIdMmfr1Refused (_c : BitVec 4) (_t : Fin 16) (_s : State) : Result := .refused (.form .writeForm)

end Sys2Proof.Machine
end

