-- ==== Sys2Proof/Machine/Dispatch.lean ====
section
/-! DEFINITION. One arm per constructor of Instr. -/

namespace Sys2Proof.Machine

def exec (i : Instr) (s : State) : Host.Outcome State Fault Refusal :=
  match i with
  | .mrcIdMmfr1 c t => Sys2Proof.Machine.execMrcIdMmfr1 c t s
  | .mcrIdMmfr1Refused c t => Sys2Proof.Machine.execMcrIdMmfr1Refused c t s

end Sys2Proof.Machine
end

