-- ==== Sys2Proof/Machine/Step.lean ====
section
/-! DEFINITION. One step: the launch checks, fetch at `pc`, decode, execute. -/

namespace Sys2Proof.Machine

/-- One step of the machine. The decoder's refusals come before any event of the access (60_exceptions.md R100); no
asynchronous event comes between two steps (R99; log 14). -/
def step (s : State) : Host.Outcome State Fault Refusal :=
  match launchRefusal s with
  | some r => .refused r
  | none =>
    match decodeBytes s.cfg.instrSet (fetchBytes s) with
    | .ok (i, _) => exec i s
    | .error e => stopOfDecodeError e

/-- The state with a table word of `nbits` bits stored where `step` fetches next: at `pc`, in the byte order of the
state's instruction set. A program is loaded from outside the machine, and this stands for that load (log 10). -/
def State.withFetchWord (s : State) (nbits w : Nat) : State := placeWord s (BitVec.ofNat 32 (w % 2 ^ nbits))

end Sys2Proof.Machine
end

