-- ==== Sys2Proof/Safety.lean ====
section
/-! DEFINITION. What a run ends in (70_reset_and_hazards.md R121), the invariant of every step, and the flushing
discipline a larger system can take as a premise (R114). -/

namespace Sys2Proof.Safety

open Sys2Proof.Machine

/-- How a run ends (70_reset_and_hazards.md R121): in a final state, or stopped, with the state the stopping instruction
found. -/
inductive RunEnd where
  | final (s : State)
  | faulted (s : State) (f : Fault)
  | refused (s : State) (r : Refusal)
deriving DecidableEq, Repr

/-- The end of a run of `n` instructions from a launch state: final after `n` outcomes `Read`; "it ends in a fault at the
first instruction whose outcome is not `Read`, with `pc` at that instruction" (70_reset_and_hazards.md R121). `n` is the
program's length, so nothing is fetched beyond its text. -/
def runEnd : Nat → State → RunEnd
  | 0, s => .final s
  | n + 1, s =>
    match step s with
    | .next s' => runEnd n s'
    | .fault f => .faulted s f
    | .refused r => .refused s r

/-- A program is a list of admitted instructions (70_reset_and_hazards.md R121). -/
abbrev ProgramAdmitted (p : List Instr) : Prop := ∀ i ∈ p, i.admitted = true

/-- The run of a program at `base` (70_reset_and_hazards.md R121): the text is placed with `pc` at `base`, a launch state the
model refuses ends it at once (20_memory.md R59, 10_state.md R35; log 12), and then its instructions run. -/
def runProgram (s : State) (base : Word) (p : List Instr) : RunEnd :=
  let launched := placeProgram s base p
  match launchRefusal launched with
  | some r => .refused launched r
  | none => runEnd p.length launched

/-- A final state of the run of `n` instructions at `base` from a launch state: `n` outcomes `Read`, each a step that
completes, and then `pc == base + 4n` (70_reset_and_hazards.md R121). -/
abbrev Final (base : Word) (n : Nat) (launched s : State) : Prop :=
  launched.pc = base ∧ Host.Core.run core n launched = .next s ∧ s.pc = base + BitVec.ofNat 32 (4 * n)

/-- What every step keeps: an admitted configuration (10_state.md R35), an aligned `pc` (20_memory.md R59), program text
in its canonical form, and `IDMMFR1_VALUE` in every general register that something has written: `MRC_ID_MMFR1` "is the
only instruction that writes a general register" (10_state.md R48). -/
abbrev Inv (s : State) : Prop :=
  configAdmitted s.cfg = true ∧ pcAligned s.cfg.instrSet s.pc = true ∧ Memory.wf s.mem ∧
    ∀ d : Fin 15, s.written[d] = true → s.x[d] = s.cfg.idmmfr1Value

/-- The faults of 60_exceptions.md R93: the three non-completing outcomes of the access. -/
def accessFault : Fault → Bool
  | .undefined => true
  | .trapEL2AArch64 _ _ => true
  | .trapHyp _ _ => true
  | .noInstruction => false

/-- What software does, as far as the branch-predictor obligation looks at it (70_reset_and_hazards.md R115, R116). -/
inductive SoftwareAction where
  | event (e : Event)
  | bpFlush
  | goOn
deriving DecidableEq, Repr

/-- Whether software flushes before it goes on after an event that demands it, for BPred value `b`; a reserved `b`
demands every flush (70_reset_and_hazards.md R114, R118, U6; log 16). `pending` says that a flush is owed. -/
def flushesInTime (b : BitVec 4) (pending : Bool) : List SoftwareAction → Bool
  | [] => true
  | .event e :: r => flushesInTime b (pending || ((bpFlushRequired b e).map Requirement.mustFlush).getD true) r
  | .bpFlush :: r => flushesInTime b false r
  | .goOn :: r => !pending && flushesInTime b pending r

end Sys2Proof.Safety
end

