-- ==== Sys2Proof/Certificates/Slice0/Obligations.lean ====
section
/-! DEFINITION. What the model is claimed to satisfy. Each statement's docstring names the rule of spec/ it formalises.
Statements over states hold for every configuration and every launch input; none rests on the reset values of log 2,
log 3 or log 4 but the two that say so. -/

open Sys2Proof Sys2Proof.Machine Sys2Proof.Safety

/-! ### The register's value -/

/-- 10_state.md R14: the extraction column of the table, and "The inverse is ...": composing the eight fields of a value
gives it back, and every field of a composed value is the field given. -/
def Obligations.FieldsPartitionTheRegister : Prop :=
  (∀ v : Word,
    Field.bpred.get v = v.extractLsb' 28 4 ∧ Field.l1TstCln.get v = v.extractLsb' 24 4 ∧
    Field.l1Uni.get v = v.extractLsb' 20 4 ∧ Field.l1Hvd.get v = v.extractLsb' 16 4 ∧
    Field.l1UniSW.get v = v.extractLsb' 12 4 ∧ Field.l1HvdSW.get v = v.extractLsb' 8 4 ∧
    Field.l1UniVA.get v = v.extractLsb' 4 4 ∧ Field.l1HvdVA.get v = v.extractLsb' 0 4) ∧
  (∀ v : Word, Field.compose (fun f => f.get v) = v) ∧
  (∀ (g : Field → BitVec 4) (f : Field), f.get (Field.compose g) = g f)

/-- 10_state.md R49: `Defined(v)` field by field, and the number of values it holds of. -/
def Obligations.DefinedHoldsOf25920Values : Prop :=
  (∀ v : Word, definedValue v = true ↔
    (v.extractLsb' 28 4).toNat ≤ 4 ∧ (v.extractLsb' 24 4).toNat ≤ 2 ∧ (v.extractLsb' 20 4).toNat ≤ 2 ∧
    (v.extractLsb' 16 4).toNat ≤ 3 ∧ (v.extractLsb' 12 4).toNat ≤ 3 ∧ (v.extractLsb' 8 4).toNat ≤ 3 ∧
    (v.extractLsb' 4 4).toNat ≤ 2 ∧ (v.extractLsb' 0 4).toNat ≤ 2) ∧
  Set.ncard {v : Word | definedValue v = true} = 25920

/-- 10_state.md R50: exactly three values are permitted in Armv8-A, each of them defined; under `ARMV8A` an admitted
configuration's value is one of them. -/
def Obligations.PermittedHoldsOfThreeValues : Prop :=
  (∀ v : Word, permittedArmv8A v = true ↔
    (v.extractLsb' 28 4 = 0b0010#4 ∨ v.extractLsb' 28 4 = 0b0011#4 ∨ v.extractLsb' 28 4 = 0b0100#4) ∧
    v.extractLsb' 24 4 = 0#4 ∧ v.extractLsb' 20 4 = 0#4 ∧ v.extractLsb' 16 4 = 0#4 ∧ v.extractLsb' 12 4 = 0#4 ∧
    v.extractLsb' 8 4 = 0#4 ∧ v.extractLsb' 4 4 = 0#4 ∧ v.extractLsb' 0 4 = 0#4) ∧
  (∀ v : Word, permittedArmv8A v = true ↔ v = 0x20000000#32 ∨ v = 0x30000000#32 ∨ v = 0x40000000#32) ∧
  (∀ v : Word, permittedArmv8A v = true → definedValue v = true) ∧
  (∀ c : Config, configAdmitted c = true → c.armv8a = true →
    c.idmmfr1Value = 0x20000000#32 ∨ c.idmmfr1Value = 0x30000000#32 ∨ c.idmmfr1Value = 0x40000000#32)

/-- 10_state.md R35: a reserved value decodes to "no meaning", and a configuration whose register value has any field
reserved is rejected: no step of the model reads it. That the check is made at every step, and before that of `pc`'s
alignment, is the model's choice (DESIGN CHOICE, log 12). -/
def Obligations.ReservedValuesAreRejected : Prop :=
  (∀ (f : Field) (b : BitVec 4), f.reserved b = true →
    supportedOps f b = none ∧ (f = .bpred → bpredMeaning b = none ∧ ∀ e, bpFlushRequired b e = none)) ∧
  (∀ (s : State) (f : Field), f.reserved (f.get s.cfg.idmmfr1Value) = true → step s = .refused .configuration)

/-- 10_state.md R34: the full set of operations each defined value of each Level 1 field reports, "a larger defined
value reports a superset", and BPred is not of this kind. -/
def Obligations.SupportedOperationsAccumulate : Prop :=
  (supportedOps .l1TstCln 0 = some [] ∧ supportedOps .l1TstCln 1 = some [.testCleanData] ∧
    supportedOps .l1TstCln 2 = some [.testCleanData, .testCleanInvalidateData]) ∧
  (supportedOps .l1Uni 0 = some [] ∧ supportedOps .l1Uni 1 = some [.invalidateCache, .invalidatePredictor] ∧
    supportedOps .l1Uni 2 = some [.invalidateCache, .invalidatePredictor, .cleanCache, .cleanInvalidateCache]) ∧
  (supportedOps .l1Hvd 0 = some [] ∧ supportedOps .l1Hvd 1 = some [.invalidateInstr, .invalidatePredictor] ∧
    supportedOps .l1Hvd 2 =
      some [.invalidateInstr, .invalidatePredictor, .invalidateData, .invalidateDataInstr] ∧
    supportedOps .l1Hvd 3 =
      some [.invalidateInstr, .invalidatePredictor, .invalidateData, .invalidateDataInstr, .cleanData,
        .cleanInvalidateData]) ∧
  (supportedOps .l1UniSW 0 = some [] ∧ supportedOps .l1UniSW 1 = some [.cleanLineSW] ∧
    supportedOps .l1UniSW 2 = some [.cleanLineSW, .cleanInvalidateLineSW] ∧
    supportedOps .l1UniSW 3 = some [.cleanLineSW, .cleanInvalidateLineSW, .invalidateLineSW]) ∧
  (supportedOps .l1HvdSW 0 = some [] ∧
    supportedOps .l1HvdSW 1 = some [.cleanDataLineSW, .cleanInvalidateDataLineSW] ∧
    supportedOps .l1HvdSW 2 = some [.cleanDataLineSW, .cleanInvalidateDataLineSW, .invalidateDataLineSW] ∧
    supportedOps .l1HvdSW 3 =
      some [.cleanDataLineSW, .cleanInvalidateDataLineSW, .invalidateDataLineSW, .invalidateInstrLineSW]) ∧
  (supportedOps .l1UniVA 0 = some [] ∧
    supportedOps .l1UniVA 1 = some [.cleanLineVA, .invalidateLineVA, .cleanInvalidateLineVA] ∧
    supportedOps .l1UniVA 2 =
      some [.cleanLineVA, .invalidateLineVA, .cleanInvalidateLineVA, .invalidatePredictorVA]) ∧
  (supportedOps .l1HvdVA 0 = some [] ∧
    supportedOps .l1HvdVA 1 =
      some [.cleanDataLineVA, .invalidateDataLineVA, .cleanInvalidateDataLineVA, .cleanInstrLineVA] ∧
    supportedOps .l1HvdVA 2 =
      some [.cleanDataLineVA, .invalidateDataLineVA, .cleanInvalidateDataLineVA, .cleanInstrLineVA,
        .invalidatePredictorVA]) ∧
  (∀ (f : Field) (b b' : BitVec 4) (ops ops' : List CacheOp), supportedOps f b = some ops →
    supportedOps f b' = some ops' → b ≤ b' → ops ⊆ ops') ∧
  (∀ b : BitVec 4, supportedOps .bpred b = none)

/-- 70_reset_and_hazards.md R118: the table of `BPFlushRequired`, no value for a reserved `b`, `NotListed` and `Unstated`
taken as `Required`, the values for which other documents might say more (10_state.md R17), and the rows that can occur
under decision D1. -/
def Obligations.FlushRequirementTable : Prop :=
  (∀ e, bpFlushRequired 0b0000#4 e = some .unstated) ∧
  (∀ e, bpFlushRequired 0b0001#4 e = some .required) ∧
  (bpFlushRequired 0b0010#4 .stageToggled = some .required ∧
    bpFlushRequired 0b0010#4 .instrWritten = some .required ∧
    bpFlushRequired 0b0010#4 .tablesWritten = some .required ∧
    bpFlushRequired 0b0010#4 (.ttbChanged false) = some .required ∧
    bpFlushRequired 0b0010#4 (.ttbChanged true) = some .notListed ∧
    bpFlushRequired 0b0010#4 .idChanged = some .notListed) ∧
  (bpFlushRequired 0b0011#4 .instrWritten = some .required ∧
    ∀ e, e ≠ .instrWritten → bpFlushRequired 0b0011#4 e = some .notRequired) ∧
  (∀ e, bpFlushRequired 0b0100#4 e = some .notRequired) ∧
  (∀ b e, b.toNat > 4 → bpFlushRequired b e = none) ∧
  (∀ r : Requirement, r.mustFlush = true ↔ r = .required ∨ r = .notListed ∨ r = .unstated) ∧
  (∀ b : BitVec 4, Field.bpred.reserved b = false →
    (moreInformationMayExist b = true ↔ b = 0b0001#4 ∨ b = 0b0010#4 ∨ b = 0b0011#4)) ∧
  (∀ c : Config, configAdmitted c = true → c.armv8a = true →
    Field.bpred.get c.idmmfr1Value = 0b0010#4 ∨ Field.bpred.get c.idmmfr1Value = 0b0011#4 ∨
      Field.bpred.get c.idmmfr1Value = 0b0100#4)

/-- 70_reset_and_hazards.md R116, R117: which event a change of translation registers and identifiers is, with the FCSE and
without it. Without it the change is the same event as the change without its FCSE ProcessID. That the identifiers are
the corresponding ones is an input of the model's function (DESIGN CHOICE, log 18). -/
def Obligations.EventOfEachChange : Prop :=
  (∀ (fcse : Bool) (ttbs : List TTBRegister) (ids : List Identifier),
    let withId := .contextId ∈ ids ∨ .asid ∈ ids ∨ (fcse = true ∧ .fcseProcessId ∈ ids)
    (ttbs ≠ [] → withId → eventOfChange fcse ttbs ids = some (.ttbChanged true)) ∧
    (ttbs ≠ [] → ¬withId → eventOfChange fcse ttbs ids = some (.ttbChanged false)) ∧
    (ttbs = [] → withId → eventOfChange fcse ttbs ids = some .idChanged) ∧
    (ttbs = [] → ¬withId → eventOfChange fcse ttbs ids = none)) ∧
  (∀ (ttbs : List TTBRegister) (ids : List Identifier),
    eventOfChange false ttbs ids = eventOfChange true ttbs (ids.filter (· ≠ .fcseProcessId)))

/-- 70_reset_and_hazards.md R114, R118: a sequence of actions is in time exactly when a flush stands between every event
that is not `NotRequired` (for a reserved BPred, every event) and every later point where software goes on: in particular
one that goes on with no flush in between is not. With BPred 0b0100 every sequence is in time, and with 0b0011 every
sequence that writes no instruction. The sequences are the model's own premise form (DESIGN CHOICE, log 16). -/
def Obligations.FlushesInTimeExactlyWhen : Prop :=
  (∀ (b : BitVec 4) (acts : List SoftwareAction), flushesInTime b false acts = true ↔
    ∀ (before between after : List SoftwareAction) (e : Event),
      acts = before ++ .event e :: between ++ .goOn :: after → bpFlushRequired b e ≠ some .notRequired →
      .bpFlush ∈ between) ∧
  (∀ (b : BitVec 4) (e : Event) (before between after : List SoftwareAction),
    bpFlushRequired b e = some .required ∨ bpFlushRequired b e = some .notListed ∨
      bpFlushRequired b e = some .unstated ∨ b.toNat > 4 →
    .bpFlush ∉ between → flushesInTime b false (before ++ .event e :: between ++ .goOn :: after) = false) ∧
  (∀ acts : List SoftwareAction, flushesInTime 0b0100#4 false acts = true) ∧
  (∀ acts : List SoftwareAction, .event .instrWritten ∉ acts → flushesInTime 0b0011#4 false acts = true) ∧
  (∀ acts : List SoftwareAction, flushesInTime 0b0001#4 false acts = true → flushesInTime 0b0011#4 false acts = true)

/-! ### Encoding -/

/-- 30_encoding.md R69 to R71, 20_memory.md R58: decoding the bytes of an encoded instruction gives the instruction and
what follows it, in each instruction set, for every instruction that set can spell (all of them in A32). -/
def Obligations.DecodeEncodeAgree : Prop :=
  ∀ (is : InstrSet) (i : Instr) (rest : List Byte), i.encodableIn is = true →
    decodeBytes is (encodeBytes is i ++ rest) = .ok (i, rest)

/-- 30_encoding.md R69 to R71: a word has one meaning: what a word decodes to encodes back to that word, so every word
but those is refused. -/
def Obligations.DecodedWordEncodesBack : Prop :=
  ∀ (is : InstrSet) (w : Word) (i : Instr), decode is w = .ok i → encode is i = w ∧ i.encodableIn is = true

/-- 30_encoding.md R68 to R70 against R80: the verdicts by mask and match are the verdicts at the tuple layer of the
record that the field layouts read from the word; a word outside the layouts is not an access to this register. -/
def Obligations.MaskVerdictsAreTupleVerdicts : Prop :=
  ∀ (is : InstrSet) (w : Word),
    verdict is w =
      match recordOfWord is w with
      | none => .error .notThisRegister
      | some r => recordVerdict r

/-- 30_encoding.md R80: the verdict table, row by row with its masks, as what decoding and executing a word in any state
answers; in the last row the word decodes to the admitted read. -/
def Obligations.WordsMeetTheVerdictTable : Prop :=
  ∀ (w : Word) (s : State),
    let outcome : InstrSet → Result := fun is =>
      match decode is w with
      | .ok i => exec i s
      | .error r => .refused (.form r)
    ((w &&& 0x0FFF0FFF#32 = 0x0E000FB1#32 → outcome .a32 = .refused (.form .writeForm)) ∧
     (w &&& 0x0FFF0FFF#32 ≠ 0x0E000FB1#32 → w &&& 0x0FFF0FFF#32 ≠ 0x0E100FB1#32 →
        outcome .a32 = .refused (.form .notThisRegister)) ∧
     (w &&& 0x0FFF0FFF#32 = 0x0E100FB1#32 → w.extractLsb' 28 4 ≠ 0b1110#4 →
        outcome .a32 = .refused (.form .condition)) ∧
     (w &&& 0x0FFF0FFF#32 = 0x0E100FB1#32 → w.extractLsb' 28 4 = 0b1110#4 → w.extractLsb' 12 4 = 0b1111#4 →
        outcome .a32 = .refused (.form .rtIs15)) ∧
     (∀ t : Fin 15, w &&& 0x0FFF0FFF#32 = 0x0E100FB1#32 → w.extractLsb' 28 4 = 0b1110#4 →
        w.extractLsb' 12 4 = BitVec.ofNat 4 t.val → decode .a32 w = .ok (.mrcIdMmfr1 0b1110#4 t.castSucc))) ∧
    ((w &&& 0xFFFF0FFF#32 = 0xEE000FB1#32 → outcome .t32 = .refused (.form .writeForm)) ∧
     (w &&& 0xFFFF0FFF#32 ≠ 0xEE000FB1#32 → w &&& 0xFFFF0FFF#32 ≠ 0xEE100FB1#32 →
        outcome .t32 = .refused (.form .notThisRegister)) ∧
     (w &&& 0xFFFF0FFF#32 = 0xEE100FB1#32 → w.extractLsb' 12 4 = 0b1111#4 →
        outcome .t32 = .refused (.form .rtIs15)) ∧
     (∀ t : Fin 15, w &&& 0xFFFF0FFF#32 = 0xEE100FB1#32 → w.extractLsb' 12 4 = BitVec.ofNat 4 t.val →
        decode .t32 w = .ok (.mrcIdMmfr1 0b1110#4 t.castSucc)))

/-- 30_encoding.md R71: a word is a read exactly under its mask and match, then with `t = w[15:12]` and in A32
`cond = w[31:28]`; with the always condition both words are `0xEE100FB1 + (t << 12)`. -/
def Obligations.ReadWordsByMaskAndMatch : Prop :=
  (∀ (w : Word) (c : BitVec 4) (t : Fin 16), decode .a32 w = .ok (.mrcIdMmfr1 c t) ↔
    w &&& 0x0FFF0FFF#32 = 0x0E100FB1#32 ∧ c = w.extractLsb' 28 4 ∧ t = (w.extractLsb' 12 4).toFin) ∧
  (∀ (w : Word) (c : BitVec 4) (t : Fin 16), decode .t32 w = .ok (.mrcIdMmfr1 c t) ↔
    w &&& 0xFFFF0FFF#32 = 0xEE100FB1#32 ∧ c = 0b1110#4 ∧ t = (w.extractLsb' 12 4).toFin) ∧
  (∀ t : Fin 16, encode .a32 (.mrcIdMmfr1 0b1110#4 t) = 0xEE100FB1#32 + (BitVec.ofNat 32 t.val <<< 12) ∧
    encode .t32 (.mrcIdMmfr1 0b1110#4 t) = 0xEE100FB1#32 + (BitVec.ofNat 32 t.val <<< 12))

/-- 30_encoding.md R74: both encodings are four bytes long, and `hw1[15:11] == 0b11101` tells a T32 decoder so: a word of
either form passes the test. Bytes whose first halfword fails it are no access to this register, whatever follows and
however few bytes stand there: that the second halfword is looked at only after the test is the model's reading of R74
(DEDUCED, log 8). -/
def Obligations.InstructionLengths : Prop :=
  (∀ (is : InstrSet) (i : Instr), (encodeBytes is i).length = 4) ∧
  (∀ (w : Word) (i : Instr), decode .t32 w = .ok i → w.extractLsb' 27 5 = 0b11101#5) ∧
  (∀ (b0 b1 : Byte) (rest : List Byte), b1.extractLsb' 3 5 ≠ 0b11101#5 →
    decodeBytes .t32 (b0 :: b1 :: rest) = .error (.rejected .notThisRegister))

/-- 20_memory.md R55: an access instruction whose tuple is not that of R68 is refused. R54, 00_scope.md R8: `SysRead` finds
a register at one location only, and there only where the register is present; that an absent one is not found is the
model's reading of 10_state.md R38 (DEDUCED, log 22). -/
def Obligations.OtherLocationsAreRefused : Prop :=
  (∀ (is : InstrSet) (w : Word) (r : AccessRecord), recordOfWord is w = some r →
    r.loc ≠ { coproc := 0b1111#4, opc1 := 0b000#3, crn := 0b0000#4, crm := 0b0001#4, opc2 := 0b101#3 } →
    decode is w = .error .notThisRegister) ∧
  (∀ (s : State) (loc : SysRegTuple) (v : Word), sysRead s loc = some v ↔
    loc = { coproc := 0b1111#4, opc1 := 0b000#3, crn := 0b0000#4, crm := 0b0001#4, opc2 := 0b101#3 } ∧
      s.cfg.el1CanUseAArch32 = true ∧ v = s.cfg.idmmfr1Value)

/-- Words of spec/95_test_vectors.md section 2.5, written out from 30_encoding.md R69 and R70, and their bytes. -/
def Obligations.WrittenOutWordsDecode : Prop :=
  decode .a32 0b1110_1110_0001_0000_0000_1111_1011_0001#32 = .ok (.mrcIdMmfr1 0b1110#4 0) ∧
  decode .a32 0b1110_1110_0001_0000_1110_1111_1011_0001#32 = .ok (.mrcIdMmfr1 0b1110#4 14) ∧
  decode .t32 0b1110_1110_0001_0000_0111_1111_1011_0001#32 = .ok (.mrcIdMmfr1 0b1110#4 7) ∧
  decode .a32 0b1110_1110_0000_0000_0000_1111_1011_0001#32 = .ok (.mcrIdMmfr1Refused 0b1110#4 0) ∧
  decode .t32 0b1110_1110_0000_0000_0011_1111_1011_0001#32 = .ok (.mcrIdMmfr1Refused 0b1110#4 3) ∧
  decode .a32 0xEE100F91#32 = .error .notThisRegister ∧
  decodeBytes .a32 [0xB1#8, 0xCF#8, 0x10#8, 0xEE#8] = .ok (.mrcIdMmfr1 0b1110#4 12, []) ∧
  decodeBytes .t32 [0x10#8, 0xEE#8, 0xB1#8, 0xCF#8] = .ok (.mrcIdMmfr1 0b1110#4 12, [])

/-! ### The access -/

/-- 40_sysreg_read.md R88, and where it holds (R82 to R86): in an admitted form, with the register present, at EL2, at EL3,
or at EL1 with no trap condition, the read completes and writes exactly `x[t]` and `pc`. -/
def Obligations.ReadWritesDestinationAndPc : Prop :=
  ∀ (s : State) (t : Fin 15), s.cfg.el1CanUseAArch32 = true →
    (s.el = .el2 ∨ s.el = .el3 ∨
      (s.el = .el1 ∧
        (s.el2Enabled = true → s.el2UsingAArch32 = false → s.hstrEL2T0 = false ∧ s.hcrEL2TID3 = false) ∧
        (s.el2Enabled = true → s.el2UsingAArch32 = true → s.hstrT0 = false ∧ s.hcrTID3 = false))) →
    exec (.mrcIdMmfr1 0b1110#4 t.castSucc) s =
      .next { s with
        x := s.x.set t s.cfg.idmmfr1Value
        written := s.written.set t true
        pc := s.pc + 4#32 }

/-- 40_sysreg_read.md R86: "At EL2 and at EL3 the outcome is always `Read`", whatever the control bits hold. -/
def Obligations.EL2AndEL3AlwaysRead : Prop :=
  ∀ (s : State) (t : Fin 15), s.cfg.el1CanUseAArch32 = true → (s.el = .el2 ∨ s.el = .el3) →
    ∃ s', exec (.mrcIdMmfr1 0b1110#4 t.castSucc) s = .next s' ∧ s'.x[t] = s.cfg.idmmfr1Value ∧
      s'.pc = s.pc + 4#32

/-- 60_exceptions.md R103, R104 with 30_encoding.md R75, R76: the forms and states in which the read completes, exactly. -/
def Obligations.ReadCompletesExactlyWhen : Prop :=
  ∀ (c : BitVec 4) (t : Fin 16) (s : State),
    (∃ s', exec (.mrcIdMmfr1 c t) s = .next s') ↔
      c = 0b1110#4 ∧ t.val < 15 ∧ s.cfg.el1CanUseAArch32 = true ∧ s.el ≠ .el0 ∧
        (s.el = .el1 → s.el2Enabled = true →
          (s.el2UsingAArch32 = false → s.hstrEL2T0 = false ∧ s.hcrEL2TID3 = false) ∧
          (s.el2UsingAArch32 = true → s.hstrT0 = false ∧ s.hcrTID3 = false))

/-- 40_sysreg_read.md R82: with the register absent the outcome is `Undefined` at every Exception level, and the trap
controls are not consulted. -/
def Obligations.AbsentRegisterIsUndefined : Prop :=
  ∀ (s : State) (t : Fin 15), s.cfg.el1CanUseAArch32 = false →
    exec (.mrcIdMmfr1 0b1110#4 t.castSucc) s = .fault .undefined

/-- 40_sysreg_read.md R83: at EL0 the outcome is `Undefined`, whatever the trap controls hold. -/
def Obligations.EL0ReadIsUndefined : Prop :=
  ∀ (s : State) (t : Fin 15), s.el = .el0 → exec (.mrcIdMmfr1 0b1110#4 t.castSucc) s = .fault .undefined

/-- 40_sysreg_read.md R84: at EL1 (register present, R82) the four conditions in the source's order, the first that holds
deciding, and a completed read where none holds. -/
def Obligations.EL1ConditionsInOrder : Prop :=
  ∀ (s : State) (t : Fin 15), s.cfg.el1CanUseAArch32 = true → s.el = .el1 →
    let c1 := s.el2Enabled = true ∧ s.el2UsingAArch32 = false ∧ s.hstrEL2T0 = true
    let c2 := s.el2Enabled = true ∧ s.el2UsingAArch32 = true ∧ s.hstrT0 = true
    let c3 := s.el2Enabled = true ∧ s.el2UsingAArch32 = false ∧ s.hcrEL2TID3 = true
    let c4 := s.el2Enabled = true ∧ s.el2UsingAArch32 = true ∧ s.hcrTID3 = true
    let r := exec (.mrcIdMmfr1 0b1110#4 t.castSucc) s
    (c1 → r = .fault (.trapEL2AArch64 0x03#6 t.castSucc)) ∧
    (¬c1 → c2 → r = .fault (.trapHyp 0x03#6 t.castSucc)) ∧
    (¬c1 → ¬c2 → c3 → r = .fault (.trapEL2AArch64 0x03#6 t.castSucc)) ∧
    (¬c1 → ¬c2 → ¬c3 → c4 → r = .fault (.trapHyp 0x03#6 t.castSucc)) ∧
    (¬c1 → ¬c2 → ¬c3 → ¬c4 → r = .next ((s.writeX t s.cfg.idmmfr1Value).advance))

/-- 40_sysreg_read.md R85: the shorter form of the EL1 arm, and which control bits are ignored: all four when EL2 is not
enabled, the pair of the other Execution state otherwise. -/
def Obligations.EL1ShortForm : Prop :=
  (∀ (s : State) (t : Fin 15), s.cfg.el1CanUseAArch32 = true → s.el = .el1 →
    exec (.mrcIdMmfr1 0b1110#4 t.castSucc) s =
      if s.el2Enabled = true ∧ s.el2UsingAArch32 = false ∧ (s.hstrEL2T0 = true ∨ s.hcrEL2TID3 = true) then
        .fault (.trapEL2AArch64 0x03#6 t.castSucc)
      else if s.el2Enabled = true ∧ s.el2UsingAArch32 = true ∧ (s.hstrT0 = true ∨ s.hcrTID3 = true) then
        .fault (.trapHyp 0x03#6 t.castSucc)
      else .next ((s.writeX t s.cfg.idmmfr1Value).advance)) ∧
  (∀ (s : State) (a b c d : Bool), s.el2Enabled = false →
    accessOutcome { s with hstrEL2T0 := a, hstrT0 := b, hcrEL2TID3 := c, hcrTID3 := d } = accessOutcome s) ∧
  (∀ (s : State) (b d : Bool), s.el2UsingAArch32 = false →
    accessOutcome { s with hstrT0 := b, hcrTID3 := d } = accessOutcome s) ∧
  (∀ (s : State) (a c : Bool), s.el2UsingAArch32 = true →
    accessOutcome { s with hstrEL2T0 := a, hcrEL2TID3 := c } = accessOutcome s)

/-- 60_exceptions.md R94: exactly when `Undefined` is raised, by any form of any instruction. -/
def Obligations.UndefinedRaisedExactlyWhen : Prop :=
  ∀ (i : Instr) (s : State), exec i s = .fault .undefined ↔
    (∃ t : Fin 15, i = .mrcIdMmfr1 0b1110#4 t.castSucc) ∧ (s.cfg.el1CanUseAArch32 = false ∨ s.el = .el0)

/-- 60_exceptions.md R95, R98: exactly when `TrapEL2_AArch64` is raised, with which code and register number. -/
def Obligations.TrapToAArch64EL2ExactlyWhen : Prop :=
  ∀ (i : Instr) (s : State) (ec : BitVec 6) (u : Fin 16), exec i s = .fault (.trapEL2AArch64 ec u) ↔
    (u.val < 15 ∧ i = .mrcIdMmfr1 0b1110#4 u) ∧ ec = 0x03#6 ∧ s.cfg.el1CanUseAArch32 = true ∧ s.el = .el1 ∧
      s.el2Enabled = true ∧ s.el2UsingAArch32 = false ∧ (s.hstrEL2T0 = true ∨ s.hcrEL2TID3 = true)

/-- 60_exceptions.md R96, R98: exactly when `TrapHyp` is raised, with which code and register number. -/
def Obligations.TrapToHypExactlyWhen : Prop :=
  ∀ (i : Instr) (s : State) (ec : BitVec 6) (u : Fin 16), exec i s = .fault (.trapHyp ec u) ↔
    (u.val < 15 ∧ i = .mrcIdMmfr1 0b1110#4 u) ∧ ec = 0x03#6 ∧ s.cfg.el1CanUseAArch32 = true ∧ s.el = .el1 ∧
      s.el2Enabled = true ∧ s.el2UsingAArch32 = true ∧ (s.hstrT0 = true ∨ s.hcrTID3 = true)

/-- 30_encoding.md R75, R76: every condition but always is refused, and then `t == 15`, in every state. -/
def Obligations.RefusedFormsOfTheRead : Prop :=
  (∀ (c : BitVec 4) (t : Fin 16) (s : State), c ≠ 0b1110#4 →
    exec (.mrcIdMmfr1 c t) s = .refused (.form .condition)) ∧
  (∀ s : State, exec (.mrcIdMmfr1 0b1110#4 15) s = .refused (.form .rtIs15))

/-- 30_encoding.md R77: a word of the write form, by its mask and match in either set, decodes to the write form, which is
refused whatever its operands and the state are; so it never changes `ID_MMFR1`. -/
def Obligations.WriteFormIsRefused : Prop :=
  (∀ w : Word, w &&& 0x0FFF0FFF#32 = 0x0E000FB1#32 → ∃ c t, decode .a32 w = .ok (.mcrIdMmfr1Refused c t)) ∧
  (∀ w : Word, w &&& 0xFFFF0FFF#32 = 0xEE000FB1#32 → ∃ c t, decode .t32 w = .ok (.mcrIdMmfr1Refused c t)) ∧
  (∀ (c : BitVec 4) (t : Fin 16) (s : State), exec (.mcrIdMmfr1Refused c t) s = .refused (.form .writeForm))

/-- Frame of the read (40_sysreg_read.md R88, 20_memory.md R56, 10_state.md R51): every register but the destination,
every mark but its own, every launch input, every parameter, and every byte of memory is unchanged. -/
def Obligations.ReadFrame : Prop :=
  ∀ (c : BitVec 4) (t : Fin 16) (s s' : State), exec (.mrcIdMmfr1 c t) s = .next s' →
    (∀ d : Fin 15, d.castSucc ≠ t → s'.x[d] = s.x[d] ∧ s'.written[d] = s.written[d]) ∧
    (∀ d : Fin 15, d.castSucc = t → s'.x[d] = s.cfg.idmmfr1Value ∧ s'.written[d] = true) ∧
    s'.cfg = s.cfg ∧ s'.el = s.el ∧ s'.el2Enabled = s.el2Enabled ∧ s'.el2UsingAArch32 = s.el2UsingAArch32 ∧
    s'.hstrEL2T0 = s.hstrEL2T0 ∧ s'.hstrT0 = s.hstrT0 ∧ s'.hcrEL2TID3 = s.hcrEL2TID3 ∧ s'.hcrTID3 = s.hcrTID3 ∧
    (∀ a : Nat, Memory.read s'.mem a = Memory.read s.mem a)

/-- 40_sysreg_read.md R89, first sentence: the outcome is a function of the eight inputs alone, not of `t`, the general
registers, `pc`, memory or any other parameter. -/
def Obligations.OutcomeDependsOnEightInputsOnly : Prop :=
  ∀ (s u : State) (t v : Fin 15), s.cfg.el1CanUseAArch32 = u.cfg.el1CanUseAArch32 → s.el = u.el →
    s.el2Enabled = u.el2Enabled → s.el2UsingAArch32 = u.el2UsingAArch32 → s.hstrEL2T0 = u.hstrEL2T0 →
    s.hstrT0 = u.hstrT0 → s.hcrEL2TID3 = u.hcrEL2TID3 → s.hcrTID3 = u.hcrTID3 →
    match exec (.mrcIdMmfr1 0b1110#4 t.castSucc) s with
    | .next _ => ∃ u', exec (.mrcIdMmfr1 0b1110#4 v.castSucc) u = .next u'
    | .fault .undefined => exec (.mrcIdMmfr1 0b1110#4 v.castSucc) u = .fault .undefined
    | .fault (.trapEL2AArch64 ec _) =>
      exec (.mrcIdMmfr1 0b1110#4 v.castSucc) u = .fault (.trapEL2AArch64 ec v.castSucc)
    | .fault (.trapHyp ec _) => exec (.mrcIdMmfr1 0b1110#4 v.castSucc) u = .fault (.trapHyp ec v.castSucc)
    | .fault .noInstruction => False
    | .refused _ => False

/-- 40_sysreg_read.md R89: "Two reads into the same `t` leave the same state as one read plus the `pc` advance." A claim
about two instructions: no asynchronous event comes between them (D18; DESIGN CHOICE, log 14). -/
def Obligations.SecondReadOnlyAdvancesPc : Prop :=
  ∀ (s s' : State) (t : Fin 15), exec (.mrcIdMmfr1 0b1110#4 t.castSucc) s = .next s' →
    exec (.mrcIdMmfr1 0b1110#4 t.castSucc) s' = .next { s' with pc := s'.pc + 4#32 }

/-! ### The whole machine -/

/-- 10_state.md R39, R41 to R47: no instruction changes the register's value, any parameter, the Exception level, an EL2
input or a control bit. -/
def Obligations.NoInstructionWritesParametersOrControls : Prop :=
  ∀ (i : Instr) (s s' : State), exec i s = .next s' →
    s'.cfg = s.cfg ∧ s'.el = s.el ∧ s'.el2Enabled = s.el2Enabled ∧ s'.el2UsingAArch32 = s.el2UsingAArch32 ∧
    s'.hstrEL2T0 = s.hstrEL2T0 ∧ s'.hstrT0 = s.hstrT0 ∧ s'.hcrEL2TID3 = s.hcrEL2TID3 ∧ s'.hcrTID3 = s.hcrTID3

/-- 60_exceptions.md R104, row EL0: no step from EL0 completes, whatever stands in memory, so nothing there learns the
register's value. -/
def Obligations.EL0CompletesNothing : Prop :=
  ∀ (s s' : State), s.el = .el0 → step s ≠ .next s'

/-- A step runs the decoded instruction: with an admitted configuration and an aligned `pc`, a step is the execution of
what the bytes at `pc` decode to (20_memory.md R58), or the refusal the decoder names (30_encoding.md R80). The third
clause is the model's choice: what is fetched where no complete instruction stands is in no rule, and the model stops
with `noInstruction` (DESIGN CHOICE, log 7); so is checking the two premises at every step (log 12). -/
def Obligations.StepRunsTheDecodedInstruction : Prop :=
  ∀ s : State, configAdmitted s.cfg = true → pcAligned s.cfg.instrSet s.pc = true →
    (∀ i rest, decodeBytes s.cfg.instrSet (fetchBytes s) = .ok (i, rest) → step s = exec i s) ∧
    (∀ r, decodeBytes s.cfg.instrSet (fetchBytes s) = .error (.rejected r) → step s = .refused (.form r)) ∧
    (decodeBytes s.cfg.instrSet (fetchBytes s) = .error .truncated → step s = .fault .noInstruction)

/-- 20_memory.md R59: an A32 `pc` that is no multiple of 4, or a T32 `pc` that is no multiple of 2, is refused (under
R59's own name where the configuration check, which comes first, passes: log 12); and every step starts and ends
aligned. -/
def Obligations.MisalignedPcIsRefused : Prop :=
  ∀ s : State,
    let misaligned := (s.cfg.instrSet = .a32 ∧ s.pc.toNat % 4 ≠ 0) ∨ (s.cfg.instrSet = .t32 ∧ s.pc.toNat % 2 ≠ 0)
    (misaligned → ∃ r, step s = .refused r) ∧
    (misaligned → configAdmitted s.cfg = true → step s = .refused .pcMisaligned) ∧
    (∀ s', step s = .next s' → (s.cfg.instrSet = .a32 → s.pc.toNat % 4 = 0 ∧ s'.pc.toNat % 4 = 0) ∧
      (s.cfg.instrSet = .t32 → s.pc.toNat % 2 = 0 ∧ s'.pc.toNat % 2 = 0))

/-- From the bytes in memory to the effect (20_memory.md R58): with a word placed at `pc`, a step executes the instruction
the word decoder reads from it, in the byte order of either instruction set, at every aligned `pc`. The load of a word
(`withFetchWord`) is the model's (DESIGN CHOICE, log 10), and so is the wrap to address 0 of a T32 instruction at
0xFFFFFFFE (DESIGN CHOICE, log 8). -/
def Obligations.PlacedWordIsExecuted : Prop :=
  ∀ (s : State) (w : Word), configAdmitted s.cfg = true → pcAligned s.cfg.instrSet s.pc = true →
    step (s.withFetchWord 32 w.toNat) =
      match decode s.cfg.instrSet w with
      | .ok i => exec i (s.withFetchWord 32 w.toNat)
      | .error r => .refused (.form r)

/-- Every step keeps the invariant: an admitted configuration (10_state.md R35), an aligned `pc` (20_memory.md R59), the
canonical form of the program text, and `IDMMFR1_VALUE` in every written general register (10_state.md R48). -/
def Obligations.StepKeepsTheInvariant : Prop :=
  ∀ s s' : State, Inv s → step s = .next s' → Inv s'

/-- The reset state meets the invariant. Reset values are the model's (DESIGN CHOICE, log 2, log 3). -/
def Obligations.ResetMeetsTheInvariant : Prop := Inv State.reset

/-- 10_state.md R52, 70_reset_and_hazards.md R112: what reset leaves: the register at its constant, an admitted one
(its value is the model's: DESIGN CHOICE, log 2), and no general register written. That no byte of program text is listed
is the model's choice, since memory is no part of R52's state (DESIGN CHOICE, log 10). The other reset values are the
model's (log 2, log 3, log 4) and not stated. -/
def Obligations.ResetLeavesRegistersUnwritten : Prop :=
  State.reset.idMmfr1 = State.reset.cfg.idmmfr1Value ∧ configAdmitted State.reset.cfg = true ∧
  State.reset.cfg.armv8a = true ∧ (∀ i : Fin 15, State.reset.written[i] = false) ∧
  (∀ a : Nat, Memory.read State.reset.mem a = none)

/-- 20_memory.md R56: no step changes a byte of memory. -/
def Obligations.StepsLeaveMemoryAlone : Prop :=
  ∀ (s s' : State), step s = .next s' → ∀ a : Nat, Memory.read s'.mem a = Memory.read s.mem a

/-- 00_scope.md R6: no outcome depends on `FCSE_SUPPORTED`, `BP_IMPLEMENTED`, `L1_KIND` or `DATA_ENDIAN`: a step from a
state that differs only in them differs only in them. -/
def Obligations.UnusedParametersHaveNoEffect : Prop :=
  ∀ (s : State) (f b : Bool) (k : L1Kind) (e : Endian),
    let change : State → State := fun u =>
      { u with cfg := { u.cfg with fcseSupported := f, bpImplemented := b, l1Kind := k, dataEndian := e } }
    match step s with
    | .next s' => step (change s) = .next (change s')
    | .fault g => step (change s) = .fault g
    | .refused r => step (change s) = .refused r

/-- 20_memory.md R62, 40_sysreg_read.md R89 over runs of any length from any state: after `k` steps `pc` is `4k` further,
every general register either is untouched or holds `IDMMFR1_VALUE`, and nothing else has changed.
A claim about several instructions: that no asynchronous event comes between them is the model's form of D18's premise
(60_exceptions.md R99; DESIGN CHOICE, log 14). -/
def Obligations.RunsReadTheConstant : Prop :=
  ∀ (k : Nat) (s s' : State), Host.Core.run core k s = .next s' →
    s'.pc = s.pc + BitVec.ofNat 32 (4 * k) ∧
    (∀ d : Fin 15, (s'.x[d] = s.x[d] ∧ s'.written[d] = s.written[d]) ∨
      (s'.x[d] = s.cfg.idmmfr1Value ∧ s'.written[d] = true)) ∧
    s'.cfg = s.cfg ∧ s'.el = s.el ∧ s'.el2Enabled = s.el2Enabled ∧ s'.el2UsingAArch32 = s.el2UsingAArch32 ∧
    s'.hstrEL2T0 = s.hstrEL2T0 ∧ s'.hstrT0 = s.hstrT0 ∧ s'.hcrEL2TID3 = s.hcrEL2TID3 ∧ s'.hcrTID3 = s.hcrTID3 ∧
    s'.mem = s.mem

/-- 40_sysreg_read.md R87, R89: a sequence of reads "either all read ... or stops at its first instruction": a run that
ends in one of the access's faults ends in the state it began in, with nothing written. A claim about several
instructions: that no asynchronous event comes between them is the model's form of D18's premise (60_exceptions.md R99;
DESIGN CHOICE, log 14). -/
def Obligations.AccessFaultsStopAtTheFirstInstruction : Prop :=
  ∀ (k : Nat) (s s' : State) (f : Fault), runEnd k s = .faulted s' f → accessFault f = true → s' = s

/-- 70_reset_and_hazards.md R121: a program of `n` admitted instructions at an aligned `base` ends, at a level and control
setting that reads, in a state that is `Final`: `pc` is `base + 4n`, each register that one of its instructions names
holds `IDMMFR1_VALUE`, and nothing else has changed since the launch. Otherwise it ends in the fault of its first
instruction, with `pc` at `base` and nothing written. At a misaligned `base` the launch is refused (20_memory.md R59). The
text fits the 32-bit address space, at whose top it wraps (DESIGN CHOICE, log 6, log 21). A claim about several
instructions: that no asynchronous event comes between them is the model's form of D18's premise (DESIGN CHOICE, log
14). -/
def Obligations.ProgramsEndFinalOrFaultAtBase : Prop :=
  ∀ (s : State) (base : Word) (p : List Instr),
    ProgramAdmitted p → p.length ≤ 2 ^ 30 → configAdmitted s.cfg = true →
    let launched := placeProgram s base p
    let trapsA64 := s.el = .el1 ∧ s.el2Enabled = true ∧ s.el2UsingAArch32 = false ∧
      (s.hstrEL2T0 = true ∨ s.hcrEL2TID3 = true)
    let trapsHyp := s.el = .el1 ∧ s.el2Enabled = true ∧ s.el2UsingAArch32 = true ∧
      (s.hstrT0 = true ∨ s.hcrTID3 = true)
    (pcAligned s.cfg.instrSet base = true → s.cfg.el1CanUseAArch32 = true → s.el ≠ .el0 → ¬trapsA64 → ¬trapsHyp →
      ∃ s', runProgram s base p = .final s' ∧ Final base p.length launched s' ∧
        (∀ d : Fin 15, .mrcIdMmfr1 0b1110#4 d.castSucc ∈ p → s'.x[d] = s.cfg.idmmfr1Value ∧ s'.written[d] = true) ∧
        (∀ d : Fin 15, .mrcIdMmfr1 0b1110#4 d.castSucc ∉ p →
          s'.x[d] = s.x[d] ∧ s'.written[d] = s.written[d]) ∧
        s' = { launched with x := s'.x, written := s'.written, pc := base + BitVec.ofNat 32 (4 * p.length) }) ∧
    (∀ (c : BitVec 4) (t : Fin 16) (rest : List Instr), p = .mrcIdMmfr1 c t :: rest →
      pcAligned s.cfg.instrSet base = true →
      (s.cfg.el1CanUseAArch32 = false ∨ s.el = .el0 → runProgram s base p = .faulted launched .undefined) ∧
      (s.cfg.el1CanUseAArch32 = true → trapsA64 →
        runProgram s base p = .faulted launched (.trapEL2AArch64 0x03#6 t)) ∧
      (s.cfg.el1CanUseAArch32 = true → trapsHyp → runProgram s base p = .faulted launched (.trapHyp 0x03#6 t))) ∧
    (pcAligned s.cfg.instrSet base = false → runProgram s base p = .refused launched .pcMisaligned)

/-- The memory primitives of 00_scope.md R8 over the program text (used by no rule; DESIGN CHOICE, log 15): what is
written is read back in either data byte order, and every byte outside is unchanged. The 32-bit address and the wrap past
its top are the model's too (DESIGN CHOICE, log 21). -/
def Obligations.MemoryReadsWhatWasWritten : Prop :=
  ∀ (s : State) (a : Word) (n : Nat) (v : BitVec (8 * n)), n ≤ 2 ^ 32 →
    memRead (memWrite s a n v) a n = some v ∧
    (∀ b : Nat, (∀ k < n, b ≠ addrPlus a k) → Memory.read (memWrite s a n v).mem b = Memory.read s.mem b)
end

