-- ==== Sys2Proof/Laws/Access.lean ====
section
/-! SUPPORT. One lemma per shared operation and per meaning that says everything it can do. -/

namespace Sys2Proof.Machine

@[simp] theorem conditionAdmitted_iff (c : BitVec 4) : conditionAdmitted c = true ↔ c = 0b1110#4 := by
  simp [conditionAdmitted, condAL]

@[simp] theorem destOf_castSucc (d : Fin 15) : destOf d.castSucc = some d := by
  simp [destOf]

theorem destOf_some {t : Fin 16} {d : Fin 15} (h : destOf t = some d) : t = d.castSucc := by
  unfold destOf at h
  split at h
  · have := Option.some.inj h
    subst this
    rfl
  · simp at h

theorem destOf_none {t : Fin 16} (h : destOf t = none) : t = 15 := by
  unfold destOf at h
  split at h
  · simp at h
  · ext
    have := t.isLt
    simp
    omega

@[simp] theorem idMmfr1Present_eq_some (s : State) (v : Word) :
    s.idMmfr1Present = some v ↔ s.cfg.el1CanUseAArch32 = true ∧ s.idMmfr1 = v := by
  simp [State.idMmfr1Present]

@[simp] theorem sysRead_idMmfr1 (s : State) : sysRead s idMmfr1Tuple = s.idMmfr1Present := by simp [sysRead]

@[simp] theorem sysRead_other (s : State) {loc : SysRegTuple} (h : loc ≠ idMmfr1Tuple) : sysRead s loc = none := by
  simp [sysRead, h]

/-- Which instructions are admitted (30_encoding.md R75 to R77). -/
theorem admitted_iff (i : Instr) : i.admitted = true ↔ ∃ d : Fin 15, i = .mrcIdMmfr1 0b1110#4 d.castSucc := by
  cases i with
  | mrcIdMmfr1 c t =>
    simp only [Instr.admitted, wellFormedCond, wellFormedRt, Bool.and_eq_true, beq_iff_eq, decide_eq_true_eq,
      Instr.mrcIdMmfr1.injEq]
    exact ⟨fun ⟨hc, ht⟩ => ⟨⟨t.val, ht⟩, hc, rfl⟩, fun ⟨d, hc, ht⟩ => ⟨hc, ht ▸ d.isLt⟩⟩
  | mcrIdMmfr1Refused c t => simp [Instr.admitted]

/-- When the access reads: the register is present and no arm of 40_sysreg_read.md R81 stops it. -/
theorem accessOutcome_read_iff (s : State) :
    accessOutcome s = .read ↔
      s.cfg.el1CanUseAArch32 = true ∧
        (s.el = .el2 ∨ s.el = .el3 ∨
          (s.el = .el1 ∧
            (s.el2Enabled = true → s.el2UsingAArch32 = false → s.hstrEL2T0 = false ∧ s.hcrEL2TID3 = false) ∧
            (s.el2Enabled = true → s.el2UsingAArch32 = true → s.hstrT0 = false ∧ s.hcrTID3 = false))) := by
  unfold accessOutcome
  cases s.cfg.el1CanUseAArch32 <;> cases s.el <;> cases s.el2Enabled <;> cases s.el2UsingAArch32 <;>
    cases s.hstrEL2T0 <;> cases s.hstrT0 <;> cases s.hcrEL2TID3 <;> cases s.hcrTID3 <;> simp

/-- Everything a next state of `MRC_ID_MMFR1` can be. -/
theorem execMrcIdMmfr1_next {c : BitVec 4} {t : Fin 16} {s s' : State} (h : execMrcIdMmfr1 c t s = .next s') :
    c = 0b1110#4 ∧ accessOutcome s = .read ∧ ∃ d : Fin 15, t = d.castSucc ∧ s' = (s.writeX d s.idMmfr1).advance := by
  unfold execMrcIdMmfr1 at h
  split at h
  · simp at h
  · rename_i hc
    split at h
    · simp at h
    · rename_i d hd
      split at h
      · simp [raise] at h
      · rename_i ho
        refine ⟨by simpa using hc, ?_, d, destOf_some hd, by simpa using h.symm⟩
        revert ho
        cases accessOutcome s <;> simp [AccessOutcome.fault?]

/-- Everything a fault of `MRC_ID_MMFR1` can be. -/
theorem execMrcIdMmfr1_fault {c : BitVec 4} {t : Fin 16} {s : State} {f : Fault}
    (h : execMrcIdMmfr1 c t s = .fault f) :
    c = 0b1110#4 ∧ (∃ d : Fin 15, t = d.castSucc) ∧ (accessOutcome s).fault? t = some f := by
  unfold execMrcIdMmfr1 at h
  split at h
  · simp at h
  · rename_i hc
    split at h
    · simp at h
    · rename_i d hd
      split at h
      · rename_i ho
        simp only [raise, Host.Outcome.fault.injEq] at h
        subst h
        exact ⟨by simpa using hc, ⟨d, destOf_some hd⟩, ho⟩
      · simp at h

/-- An admitted form runs the access. -/
theorem execMrcIdMmfr1_admitted (d : Fin 15) (s : State) :
    execMrcIdMmfr1 0b1110#4 d.castSucc s =
      match (accessOutcome s).fault? d.castSucc with
      | some f => .fault f
      | none => .next (s.writeX d s.idMmfr1).advance := by
  cases h : (accessOutcome s).fault? d.castSucc <;> simp [execMrcIdMmfr1, conditionAdmitted, condAL, raise, h]

/-- Everything a next state of any instruction can be. -/
theorem exec_next {i : Instr} {s s' : State} (h : exec i s = .next s') :
    accessOutcome s = .read ∧
      ∃ d : Fin 15, i = .mrcIdMmfr1 0b1110#4 d.castSucc ∧ s' = (s.writeX d s.idMmfr1).advance := by
  cases i with
  | mrcIdMmfr1 c t =>
    obtain ⟨rfl, ho, d, rfl, rfl⟩ := execMrcIdMmfr1_next h
    exact ⟨ho, d, rfl, rfl⟩
  | mcrIdMmfr1Refused c t => simp [exec, execMcrIdMmfr1Refused] at h

/-- Everything a next state of a step can be: the launch checks passed, an instruction was decoded, and it ran. -/
theorem step_next {s s' : State} (h : step s = .next s') :
    launchRefusal s = none ∧
      ∃ i rest, decodeBytes s.cfg.instrSet (fetchBytes s) = .ok (i, rest) ∧ exec i s = .next s' := by
  unfold step at h
  split at h
  · simp at h
  · rename_i hl
    split at h
    · rename_i i rest hd
      exact ⟨hl, i, rest, hd, h⟩
    · rename_i e _
      cases e <;> simp [stopOfDecodeError] at h

/-- What a step changes: one register, its mark, and `pc`. -/
theorem step_next_effect {s s' : State} (h : step s = .next s') :
    accessOutcome s = .read ∧ ∃ d : Fin 15, s' = (s.writeX d s.idMmfr1).advance := by
  obtain ⟨-, i, rest, -, he⟩ := step_next h
  obtain ⟨ho, d, -, rfl⟩ := exec_next he
  exact ⟨ho, d, rfl⟩

theorem launchRefusal_none_iff (s : State) :
    launchRefusal s = none ↔ configAdmitted s.cfg = true ∧ pcAligned s.cfg.instrSet s.pc = true := by
  unfold launchRefusal
  cases configAdmitted s.cfg <;> cases pcAligned s.cfg.instrSet s.pc <;> simp

end Sys2Proof.Machine
end

