-- ==== Sys2Proof/Laws/Decode.lean ====
section
/-! SUPPORT. Bit lemmas of the binary layer: a word is its four parts, a masked word keeps two of them. -/

namespace Sys2Proof

/-- A word is its condition field, the twelve bits above `Rt`, `Rt`, and the twelve bits below. -/
theorem word_eq_parts (w : Word) :
    w = w.extractLsb' 28 4 ++ w.extractLsb' 16 12 ++ w.extractLsb' 12 4 ++ w.extractLsb' 0 12 := by
  apply BitVec.eq_of_getLsbD_eq
  intro i hi
  interval_cases i <;> simp only [BitVec.getLsbD_append, BitVec.getLsbD_extractLsb'] <;> rfl

/-- The parts of a word made of parts. -/
theorem parts_of_word (c : BitVec 4) (h : BitVec 12) (t : BitVec 4) (l : BitVec 12) :
    BitVec.extractLsb' 28 4 (c ++ h ++ t ++ l) = c ∧ BitVec.extractLsb' 16 12 (c ++ h ++ t ++ l) = h ∧
      BitVec.extractLsb' 12 4 (c ++ h ++ t ++ l) = t ∧ BitVec.extractLsb' 0 12 (c ++ h ++ t ++ l) = l := by
  refine ⟨?_, ?_, ?_, ?_⟩ <;>
    (apply BitVec.eq_of_getLsbD_eq
     intro i hi
     interval_cases i <;> simp only [BitVec.getLsbD_append, BitVec.getLsbD_extractLsb'] <;> rfl)

theorem and_a32Mask (w : Word) :
    w &&& 0x0FFF0FFF#32 = 0#4 ++ w.extractLsb' 16 12 ++ 0#4 ++ w.extractLsb' 0 12 := by
  apply BitVec.eq_of_getLsbD_eq
  intro i hi
  interval_cases i <;>
    simp only [BitVec.getLsbD_append, BitVec.getLsbD_extractLsb', BitVec.getLsbD_and] <;> simp

theorem and_t32Mask (w : Word) :
    w &&& 0xFFFF0FFF#32 = w.extractLsb' 28 4 ++ w.extractLsb' 16 12 ++ 0#4 ++ w.extractLsb' 0 12 := by
  apply BitVec.eq_of_getLsbD_eq
  intro i hi
  interval_cases i <;>
    simp only [BitVec.getLsbD_append, BitVec.getLsbD_extractLsb', BitVec.getLsbD_and] <;> simp

/-- Parts determine a word. -/
theorem parts_inj {c c' : BitVec 4} {h h' : BitVec 12} {t t' : BitVec 4} {l l' : BitVec 12}
    (e : c ++ h ++ t ++ l = c' ++ h' ++ t' ++ l') : c = c' ∧ h = h' ∧ t = t' ∧ l = l' := by
  obtain ⟨p1, p2, p3, p4⟩ := parts_of_word c h t l
  obtain ⟨q1, q2, q3, q4⟩ := parts_of_word c' h' t' l'
  rw [e] at p1 p2 p3 p4
  exact ⟨p1.symm.trans q1, p2.symm.trans q2, p3.symm.trans q3, p4.symm.trans q4⟩

/-- A masked A32 word equals a match exactly when the two fixed parts do (30_encoding.md R71). -/
theorem and_a32Mask_eq_iff (w : Word) (h l : BitVec 12) :
    w &&& 0x0FFF0FFF#32 = 0#4 ++ h ++ 0#4 ++ l ↔ w.extractLsb' 16 12 = h ∧ w.extractLsb' 0 12 = l := by
  rw [and_a32Mask]
  exact ⟨fun e => ⟨(parts_inj e).2.1, (parts_inj e).2.2.2⟩, fun ⟨e1, e2⟩ => by rw [e1, e2]⟩

/-- A masked T32 word equals a match exactly when the three fixed parts do (30_encoding.md R71). -/
theorem and_t32Mask_eq_iff (w : Word) (c : BitVec 4) (h l : BitVec 12) :
    w &&& 0xFFFF0FFF#32 = c ++ h ++ 0#4 ++ l ↔
      w.extractLsb' 28 4 = c ∧ w.extractLsb' 16 12 = h ∧ w.extractLsb' 0 12 = l := by
  rw [and_t32Mask]
  exact ⟨fun e => ⟨(parts_inj e).1, (parts_inj e).2.1, (parts_inj e).2.2.2⟩,
    fun ⟨e0, e1, e2⟩ => by rw [e0, e1, e2]⟩

/-- The write form in terms of the parts of the word. -/
theorem isWrite_iff (is : InstrSet) (w : Word) :
    w &&& accessMask is = writeMatch is ↔
      (is = .t32 → w.extractLsb' 28 4 = 0xE#4) ∧ w.extractLsb' 16 12 = 0xE00#12 ∧ w.extractLsb' 0 12 = 0xFB1#12 := by
  cases is
  · simpa [accessMask, writeMatch] using and_a32Mask_eq_iff w 0xE00#12 0xFB1#12
  · simpa [accessMask, writeMatch] using and_t32Mask_eq_iff w 0xE#4 0xE00#12 0xFB1#12

/-- The read form in terms of the parts of the word. -/
theorem isRead_iff (is : InstrSet) (w : Word) :
    w &&& accessMask is = readMatch is ↔
      (is = .t32 → w.extractLsb' 28 4 = 0xE#4) ∧ w.extractLsb' 16 12 = 0xE10#12 ∧ w.extractLsb' 0 12 = 0xFB1#12 := by
  cases is
  · simpa [accessMask, readMatch] using and_a32Mask_eq_iff w 0xE10#12 0xFB1#12
  · simpa [accessMask, readMatch] using and_t32Mask_eq_iff w 0xE#4 0xE10#12 0xFB1#12

/-- A word is its two halfwords, each from its two bytes. -/
theorem wordOfHalves_bytes (w : Word) :
    wordOfHalves (halfword (w.extractLsb' 16 8) (w.extractLsb' 24 8))
      (halfword (w.extractLsb' 0 8) (w.extractLsb' 8 8)) = w := by
  unfold wordOfHalves halfword
  apply BitVec.eq_of_getLsbD_eq
  intro i hi
  interval_cases i <;> simp only [BitVec.getLsbD_append, BitVec.getLsbD_extractLsb'] <;> rfl

/-- The T32 length test in terms of the word. -/
theorem thumb32_halfword (w : Word) :
    thumb32 (halfword (w.extractLsb' 16 8) (w.extractLsb' 24 8)) = (w.extractLsb' 27 5 == 0b11101#5) := by
  have e : BitVec.extractLsb' 11 5 (halfword (w.extractLsb' 16 8) (w.extractLsb' 24 8)) = w.extractLsb' 27 5 := by
    unfold halfword
    apply BitVec.eq_of_getLsbD_eq
    intro i hi
    interval_cases i <;> simp only [BitVec.getLsbD_append, BitVec.getLsbD_extractLsb'] <;> rfl
  unfold thumb32
  rw [e]

/-- Decoding an A32 word's bytes is decoding the word. -/
theorem decodeBytes_a32 (w : Word) (rest : List Byte) :
    decodeBytes .a32 (bytesOfWord .a32 w ++ rest) = decodeWordThen .a32 w rest := by
  simp only [bytesOfWord, List.cons_append, List.nil_append, decodeBytes]
  rw [wordOfHalves_bytes]

/-- Decoding a T32 word's bytes: the length test, then the word. -/
theorem decodeBytes_t32 (w : Word) (rest : List Byte) :
    decodeBytes .t32 (bytesOfWord .t32 w ++ rest) =
      if w.extractLsb' 27 5 = 0b11101#5 then decodeWordThen .t32 w rest
      else .error (.rejected .notThisRegister) := by
  simp only [bytesOfWord, List.cons_append, List.nil_append, decodeBytes]
  rw [thumb32_halfword, wordOfHalves_bytes]
  simp only [beq_iff_eq]

/-- The words of either T32 form pass the length test. -/
theorem thumb32_of_parts (w : Word) (h : w.extractLsb' 28 4 = 0xE#4)
    (h' : w.extractLsb' 16 12 = 0xE10#12 ∨ w.extractLsb' 16 12 = 0xE00#12) : w.extractLsb' 27 5 = 0b11101#5 := by
  have e : w.extractLsb' 27 5 = w.extractLsb' 28 4 ++ BitVec.extractLsb' 11 1 (w.extractLsb' 16 12) := by
    apply BitVec.eq_of_getLsbD_eq
    intro i hi
    interval_cases i <;> simp only [BitVec.getLsbD_append, BitVec.getLsbD_extractLsb'] <;> rfl
  rw [e, h]
  obtain h' | h' := h' <;> rw [h'] <;> decide

/-- What a decoding can answer: the instruction of the form the word has, with the word's operands. -/
theorem decode_ok_cases {is : InstrSet} {w : Word} {i : Instr} (h : decode is w = .ok i) :
    (w &&& accessMask is = writeMatch is ∧ i = .mcrIdMmfr1Refused (condOf is w) (rtOf w)) ∨
      (w &&& accessMask is = readMatch is ∧ i = .mrcIdMmfr1 (condOf is w) (rtOf w)) := by
  unfold decode at h
  split at h
  · rename_i hw
    exact .inl ⟨hw, by simpa using h.symm⟩
  · split at h
    · rename_i hr
      exact .inr ⟨hr, by simpa using h.symm⟩
    · simp at h

/-- The only reason the word decoder gives. -/
theorem decode_error {is : InstrSet} {w : Word} {r : RefusedReason} (h : decode is w = .error r) :
    r = .notThisRegister := by
  unfold decode at h
  split at h
  · simp at h
  · split at h <;> simp_all

end Sys2Proof
end

