-- ==== Sys2Proof/Laws/Memory.lean ====
section
/-! SUPPORT. Memory: read after write, and every memory operation keeps the canonical form. -/

namespace Sys2Proof.Machine

@[simp] theorem Memory.read_nil (a : Nat) : Memory.read [] a = none := rfl

theorem Memory.read_write_same (m : List Host.Cell) (a : Nat) (b : Byte) :
    Memory.read (Memory.write m a b) a = some b := by
  induction m with
  | nil => simp [Memory.write, Memory.read]
  | cons c m ih =>
    obtain ⟨k, v⟩ := c
    unfold Memory.write
    split
    · simp [Memory.read]
    · split
      · simp [Memory.read]
      · rename_i _ h
        simp [Memory.read, Ne.symm h, ih]

theorem Memory.read_write_ne (m : List Host.Cell) {a a' : Nat} (b : Byte) (h : a' ≠ a) :
    Memory.read (Memory.write m a b) a' = Memory.read m a' := by
  induction m with
  | nil => simp [Memory.write, Memory.read, unlisted, Ne.symm h]
  | cons c m ih =>
    obtain ⟨k, v⟩ := c
    unfold Memory.write
    split
    · simp [Memory.read, Ne.symm h]
    · split
      · rename_i _ e
        subst e
        simp [Memory.read, Ne.symm h]
      · simp [Memory.read, ih]

/-- What a write lists is the new cell and what was listed. -/
theorem Memory.mem_write {m : List Host.Cell} {a : Nat} {b : Byte} {c : Host.Cell}
    (h : c ∈ Memory.write m a b) : c = (a, b) ∨ c ∈ m := by
  induction m with
  | nil => simpa [Memory.write] using h
  | cons d m ih =>
    obtain ⟨k, v⟩ := d
    unfold Memory.write at h
    split at h
    · simpa using h
    · split at h
      · rcases List.mem_cons.1 h with h | h
        · exact .inl h
        · exact .inr (List.mem_cons_of_mem _ h)
      · rcases List.mem_cons.1 h with h | h
        · exact .inr (h ▸ List.mem_cons_self)
        · exact (ih h).imp_right (List.mem_cons_of_mem _)

theorem Memory.wf_write {m : List Host.Cell} {a : Nat} (b : Byte) (hm : Memory.wf m) (ha : a < 2 ^ 32) :
    Memory.wf (Memory.write m a b) := by
  refine ⟨?_, fun c hc => ?_⟩
  · obtain ⟨hp, -⟩ := hm
    induction m with
    | nil => simp [Memory.write]
    | cons d m ih =>
      obtain ⟨k, v⟩ := d
      obtain ⟨hk, hp'⟩ := List.pairwise_cons.1 hp
      unfold Memory.write
      split
      · rename_i hlt
        refine List.pairwise_cons.2 ⟨fun c hc => ?_, hp⟩
        rcases List.mem_cons.1 hc with rfl | hc
        · exact hlt
        · exact Nat.lt_trans hlt (hk c hc)
      · split
        · rename_i _ e
          subst e
          exact List.pairwise_cons.2 ⟨hk, hp'⟩
        · rename_i h1 h2
          refine List.pairwise_cons.2 ⟨fun c hc => ?_, ih hp'⟩
          rcases Memory.mem_write hc with rfl | hc
          · exact Nat.lt_of_le_of_ne (Nat.le_of_not_lt h1) (Ne.symm h2)
          · exact hk c hc
  · rcases Memory.mem_write hc with rfl | hc
    · exact ha
    · exact hm.2 c hc

theorem Memory.wf_writeBytes {m : List Host.Cell} (a : Word) (bs : List Byte) (hm : Memory.wf m) :
    Memory.wf (Memory.writeBytes m a bs) := by
  induction bs generalizing m a with
  | nil => exact hm
  | cons b bs ih => exact ih _ (Memory.wf_write b hm a.isLt)

theorem memWrite_wf {s : State} (a : Word) (n : Nat) (v : BitVec (8 * n)) (h : Memory.wf s.mem) :
    Memory.wf (memWrite s a n v).mem := Memory.wf_writeBytes _ _ h

theorem placeWord_wf {s : State} (w : Word) (h : Memory.wf s.mem) : Memory.wf (placeWord s w).mem :=
  Memory.wf_writeBytes _ _ h

theorem withFetchWord_wf {s : State} (nbits w : Nat) (h : Memory.wf s.mem) :
    Memory.wf (s.withFetchWord nbits w).mem := placeWord_wf _ h

theorem placeProgram_wf {s : State} (base : Word) (is : List Instr) (h : Memory.wf s.mem) :
    Memory.wf (placeProgram s base is).mem := Memory.wf_writeBytes _ _ h

theorem reset_mem_wf : Memory.wf State.reset.mem := by decide

/-! ### Runs of bytes -/

@[simp] theorem addrPlus_zero (a : Word) : addrPlus a 0 = a.toNat := by simp [addrPlus]

theorem addrPlus_succ (a : Word) (k : Nat) : addrPlus a (k + 1) = addrPlus (a + 1#32) k := by
  simp only [addrPlus, BitVec.toNat_add, BitVec.toNat_ofNat]
  omega

/-- Offsets add. -/
theorem addrPlus_add (a : Word) (j k : Nat) : addrPlus (a + BitVec.ofNat 32 j) k = addrPlus a (j + k) := by
  simp [addrPlus, BitVec.ofNat_add, BitVec.add_assoc]

/-- Addresses less than the whole space apart are different. -/
theorem addrPlus_ne {a : Word} {j k : Nat} (hj : j < 2 ^ 32) (hk : k < 2 ^ 32) (h : j ≠ k) :
    addrPlus a j ≠ addrPlus a k := by
  have := a.isLt
  simp only [addrPlus, BitVec.toNat_add, BitVec.toNat_ofNat]
  omega

/-- Bytes outside a stored run are unchanged. -/
theorem Memory.read_writeBytes_ne {m : List Host.Cell} {a : Word} {bs : List Byte} {x : Nat}
    (h : ∀ k < bs.length, x ≠ addrPlus a k) : Memory.read (Memory.writeBytes m a bs) x = Memory.read m x := by
  induction bs generalizing m a with
  | nil => rfl
  | cons b bs ih =>
    have h0 : x ≠ a.toNat := by simpa using h 0 (by simp)
    rw [Memory.writeBytes, ih fun k hk => by
      rw [← addrPlus_succ]
      exact h (k + 1) (by simpa using hk)]
    exact Memory.read_write_ne m b h0

/-- Each byte of a stored run reads back. -/
theorem Memory.read_writeBytes {m : List Host.Cell} {a : Word} {bs : List Byte} {k : Nat}
    (hl : bs.length ≤ 2 ^ 32) (hk : k < bs.length) :
    Memory.read (Memory.writeBytes m a bs) (addrPlus a k) = bs[k]? := by
  induction bs generalizing m a k with
  | nil => simp at hk
  | cons b bs ih =>
    have hl' : bs.length < 2 ^ 32 := by simpa [Nat.succ_le_iff] using hl
    cases k with
    | zero =>
      rw [Memory.writeBytes, Memory.read_writeBytes_ne fun j hj => by
        rw [← addrPlus_succ]
        exact addrPlus_ne (by omega) (by omega) (by omega)]
      simp [Memory.read_write_same]
    | succ k =>
      rw [Memory.writeBytes, addrPlus_succ, ih (by omega) (by simpa using hk)]
      simp

/-- A stored run reads back whole. -/
theorem Memory.readBytes_of_reads {m : List Host.Cell} {a : Word} {bs : List Byte}
    (h : ∀ k < bs.length, Memory.read m (addrPlus a k) = bs[k]?) : Memory.readBytes m a bs.length = some bs := by
  induction bs generalizing a with
  | nil => rfl
  | cons b bs ih =>
    have h0 : Memory.read m a.toNat = some b := by simpa using h 0 (by simp)
    have h1 := ih (a := a + 1#32) fun k hk => by
      rw [← addrPlus_succ]
      simpa using h (k + 1) (by simpa using hk)
    simp [Memory.readBytes, h0, h1]

/-- Where the four bytes of a word stand from `pc` up, in the byte order of either instruction set, they are fetched. -/
theorem fetchBytes_of_reads {s : State} {is : InstrSet} {w : Word}
    (h : ∀ k < 4, Memory.read s.mem (addrPlus s.pc k) = (bytesOfWord is w)[k]?) : fetchBytes s = bytesOfWord is w := by
  unfold fetchBytes
  rw [h 0 (by omega), h 1 (by omega), h 2 (by omega), h 3 (by omega)]
  cases is <;> simp [bytesOfWord, presentPrefix]

/-- The bytes fetched where a word was placed are the word's. -/
theorem fetchBytes_placeWord (s : State) (w : Word) :
    fetchBytes (placeWord s w) = bytesOfWord s.cfg.instrSet w :=
  fetchBytes_of_reads fun k hk =>
    have hlen : (bytesOfWord s.cfg.instrSet w).length = 4 := by cases s.cfg.instrSet <;> rfl
    Memory.read_writeBytes (by omega) (by omega)

end Sys2Proof.Machine
end

