-- ==== Sys2Proof/Laws/PerInstr.lean ====
section
/-! SUPPORT. Statements made instruction by instruction. -/

namespace Sys2Proof.Laws

/-- Family `EncodesInItsRow`: the A32 word of an instruction has the match of its row of spec/opcode_table.json under the
row's mask, and the record the layouts read from it is the instruction's (30_encoding.md R69, R71, R77). -/
def EncodesInItsRow.Statement (i : Instr) : Prop :=
  (encode .a32 i &&& accessMask .a32 = match i with
    | .mrcIdMmfr1 _ _ => readMatch .a32
    | .mcrIdMmfr1Refused _ _ => writeMatch .a32) ∧
  recordOfWord .a32 (encode .a32 i) = some i.record

theorem EncodesInItsRow.mrcIdMmfr1 (c : BitVec 4) (t : Fin 16) : EncodesInItsRow.Statement (.mrcIdMmfr1 c t) := by
  unfold EncodesInItsRow.Statement
  revert c t
  decide

theorem EncodesInItsRow.mcrIdMmfr1Refused (c : BitVec 4) (t : Fin 16) :
    EncodesInItsRow.Statement (.mcrIdMmfr1Refused c t) := by
  unfold EncodesInItsRow.Statement
  revert c t
  decide

end Sys2Proof.Laws
end

