-- ==== Sys2Proof/Laws/Run.lean ====
section
/-! SUPPORT. Unrolling of runs, one step at the front. -/

namespace Sys2Proof.Safety

open Sys2Proof.Machine

/-- No steps answer the state they began in, on any machine. -/
theorem run_zero_next (M : Host.Core) (s s' : M.State) : Host.Core.run M 0 s = .next s' ↔ s = s' :=
  ⟨fun h => Host.Outcome.next.inj h, fun h => congrArg _ h⟩

/-- A run of one step more is that step and the run after it, on any machine. -/
theorem run_succ_next (M : Host.Core) (k : Nat) (s s' : M.State) :
    Host.Core.run M (k + 1) s = .next s' ↔ ∃ u, M.step s = .next u ∧ Host.Core.run M k u = .next s' := by
  show (match M.step s with
    | .next u => Host.Core.run M k u
    | .fault f => .fault f
    | .refused r => .refused r) = _ ↔ _
  cases M.step s <;> simp

theorem core_run_zero (s s' : State) : Host.Core.run core 0 s = .next s' ↔ s = s' := run_zero_next core s s'

theorem core_run_succ (k : Nat) (s s' : State) :
    Host.Core.run core (k + 1) s = .next s' ↔ ∃ u, step s = .next u ∧ Host.Core.run core k u = .next s' :=
  run_succ_next core k s s'

@[simp] theorem runEnd_zero (s : State) : runEnd 0 s = .final s := rfl

/-- The run of one instruction more, by what its first step answers. -/
theorem runEnd_succ_next {s u : State} (n : Nat) (h : step s = .next u) : runEnd (n + 1) s = runEnd n u := by
  simp [runEnd, h]

theorem runEnd_succ_fault {s : State} {f : Fault} (n : Nat) (h : step s = .fault f) :
    runEnd (n + 1) s = .faulted s f := by
  simp [runEnd, h]

theorem runEnd_succ_refused {s : State} {r : Refusal} (n : Nat) (h : step s = .refused r) :
    runEnd (n + 1) s = .refused s r := by
  simp [runEnd, h]

/-- What a step that stops in a fault can be: a fault of the access it executes, or the end of the text. -/
theorem step_fault {s : State} {f : Fault} (h : step s = .fault f) :
    f = .noInstruction ∨ ∃ i rest, decodeBytes s.cfg.instrSet (fetchBytes s) = .ok (i, rest) ∧ exec i s = .fault f := by
  unfold step at h
  split at h
  · simp at h
  · split at h
    · rename_i i rest hd
      exact .inr ⟨i, rest, hd, h⟩
    · rename_i e _
      cases e with
      | rejected r => simp [stopOfDecodeError] at h
      | truncated =>
        simp only [stopOfDecodeError, Host.Outcome.fault.injEq] at h
        exact .inl h.symm

end Sys2Proof.Safety
end

