-- ==== Sys2Proof/Laws/State.lean ====
section
/-! SUPPORT. One lemma per field per state update, true by rfl. -/

namespace Sys2Proof.Machine

section advance
variable (s : State)
@[simp] theorem State.advance_cfg : s.advance.cfg = s.cfg := rfl
@[simp] theorem State.advance_x : s.advance.x = s.x := rfl
@[simp] theorem State.advance_written : s.advance.written = s.written := rfl
@[simp] theorem State.advance_pc : s.advance.pc = s.pc + 4#32 := rfl
@[simp] theorem State.advance_el : s.advance.el = s.el := rfl
@[simp] theorem State.advance_el2Enabled : s.advance.el2Enabled = s.el2Enabled := rfl
@[simp] theorem State.advance_el2UsingAArch32 : s.advance.el2UsingAArch32 = s.el2UsingAArch32 := rfl
@[simp] theorem State.advance_hstrEL2T0 : s.advance.hstrEL2T0 = s.hstrEL2T0 := rfl
@[simp] theorem State.advance_hstrT0 : s.advance.hstrT0 = s.hstrT0 := rfl
@[simp] theorem State.advance_hcrEL2TID3 : s.advance.hcrEL2TID3 = s.hcrEL2TID3 := rfl
@[simp] theorem State.advance_hcrTID3 : s.advance.hcrTID3 = s.hcrTID3 := rfl
@[simp] theorem State.advance_mem : s.advance.mem = s.mem := rfl
end advance

section writeX
variable (s : State) (i : Fin 15) (v : Word)
@[simp] theorem State.writeX_cfg : (s.writeX i v).cfg = s.cfg := rfl
@[simp] theorem State.writeX_x : (s.writeX i v).x = s.x.set i v := rfl
@[simp] theorem State.writeX_written : (s.writeX i v).written = s.written.set i true := rfl
@[simp] theorem State.writeX_pc : (s.writeX i v).pc = s.pc := rfl
@[simp] theorem State.writeX_el : (s.writeX i v).el = s.el := rfl
@[simp] theorem State.writeX_el2Enabled : (s.writeX i v).el2Enabled = s.el2Enabled := rfl
@[simp] theorem State.writeX_el2UsingAArch32 : (s.writeX i v).el2UsingAArch32 = s.el2UsingAArch32 := rfl
@[simp] theorem State.writeX_hstrEL2T0 : (s.writeX i v).hstrEL2T0 = s.hstrEL2T0 := rfl
@[simp] theorem State.writeX_hstrT0 : (s.writeX i v).hstrT0 = s.hstrT0 := rfl
@[simp] theorem State.writeX_hcrEL2TID3 : (s.writeX i v).hcrEL2TID3 = s.hcrEL2TID3 := rfl
@[simp] theorem State.writeX_hcrTID3 : (s.writeX i v).hcrTID3 = s.hcrTID3 := rfl
@[simp] theorem State.writeX_mem : (s.writeX i v).mem = s.mem := rfl
end writeX

section memWrite
variable (s : State) (a : Word) (n : Nat) (v : BitVec (8 * n))
@[simp] theorem memWrite_cfg : (memWrite s a n v).cfg = s.cfg := rfl
@[simp] theorem memWrite_x : (memWrite s a n v).x = s.x := rfl
@[simp] theorem memWrite_pc : (memWrite s a n v).pc = s.pc := rfl
@[simp] theorem memWrite_el : (memWrite s a n v).el = s.el := rfl
end memWrite

section placeWord
variable (s : State) (w : Word)
@[simp] theorem placeWord_cfg : (placeWord s w).cfg = s.cfg := rfl
@[simp] theorem placeWord_x : (placeWord s w).x = s.x := rfl
@[simp] theorem placeWord_written : (placeWord s w).written = s.written := rfl
@[simp] theorem placeWord_pc : (placeWord s w).pc = s.pc := rfl
@[simp] theorem placeWord_el : (placeWord s w).el = s.el := rfl
@[simp] theorem placeWord_mem :
    (placeWord s w).mem = Memory.writeBytes s.mem s.pc (bytesOfWord s.cfg.instrSet w) := rfl
end placeWord

section placeProgram
variable (s : State) (base : Word) (p : List Instr)
@[simp] theorem placeProgram_cfg : (placeProgram s base p).cfg = s.cfg := rfl
@[simp] theorem placeProgram_x : (placeProgram s base p).x = s.x := rfl
@[simp] theorem placeProgram_written : (placeProgram s base p).written = s.written := rfl
@[simp] theorem placeProgram_pc : (placeProgram s base p).pc = base := rfl
@[simp] theorem placeProgram_el : (placeProgram s base p).el = s.el := rfl
end placeProgram

/-- Reading back a register just written (00_scope.md R8). -/
@[simp] theorem State.readX_writeX_same (s : State) (i : Fin 15) (v : Word) : (s.writeX i v).readX i = v := by
  simp [State.readX]

/-- A write leaves every other register alone. -/
theorem State.readX_writeX_ne (s : State) {i j : Fin 15} (v : Word) (h : j ≠ i) :
    (s.writeX i v).readX j = s.readX j := by
  have : i.val ≠ j.val := fun e => h (Fin.ext e.symm)
  simp [State.readX, this]

@[simp] theorem State.readX_advance (s : State) (i : Fin 15) : s.advance.readX i = s.readX i := rfl

@[simp] theorem State.idMmfr1_advance (s : State) : s.advance.idMmfr1 = s.idMmfr1 := rfl

@[simp] theorem State.idMmfr1_writeX (s : State) (i : Fin 15) (v : Word) : (s.writeX i v).idMmfr1 = s.idMmfr1 := rfl

end Sys2Proof.Machine
end

