-- ==== Sys2Proof/Tests/Slice0.lean ====
section
/-! SUPPORT. The model's own tests. Expected results are the spec's: 95_test_vectors.md (sections 2.1 to 2.6, programs P1
to P7) and the worked example of 40_sysreg_read.md R81. Then one witness for every statement that has hypotheses. -/

namespace Sys2Proof.Tests

open Sys2Proof.Machine Sys2Proof.Safety

/-! ### Helpers -/

def nextOf : Result → Option State
  | .next s => some s
  | .fault _ => none
  | .refused _ => none

def faultOf : Result → Option Fault
  | .next _ => none
  | .fault f => some f
  | .refused _ => none

def refusalOf : Result → Option Refusal
  | .next _ => none
  | .fault _ => none
  | .refused r => some r

/-- A launch at a level with the two EL2 inputs and the four control bits, in the order of section 2.4. -/
def launch (el : EL) (en a32 t0EL2 t0 tid3EL2 tid3 : Bool) : State :=
  { State.reset with
    el := el
    el2Enabled := en
    el2UsingAArch32 := a32
    hstrEL2T0 := t0EL2
    hstrT0 := t0
    hcrEL2TID3 := tid3EL2
    hcrTID3 := tid3 }

/-- A state in the T32 instruction set. -/
def inT32 (s : State) : State := { s with cfg := { s.cfg with instrSet := .t32 } }

/-- A state where the register is absent. -/
def absent (s : State) : State := { s with cfg := { s.cfg with el1CanUseAArch32 := false } }

/-- A state whose register holds `v`. -/
def holding (v : Word) (s : State) : State := { s with cfg := { s.cfg with idmmfr1Value := v } }

def readR0 : Instr := .mrcIdMmfr1 0b1110#4 0

/-! ### WellFormed smoke: an ill-formed term for each check -/

theorem test_wellFormed_admits : readR0.wellFormed = true ∧ (Instr.mrcIdMmfr1 0b1110#4 14).wellFormed = true := by decide

theorem test_wellFormed_refuses_condition : (Instr.mrcIdMmfr1 0b0000#4 0).wellFormed = false := by decide

theorem test_wellFormed_refuses_condition_1111 : (Instr.mrcIdMmfr1 0b1111#4 0).wellFormed = false := by decide

theorem test_wellFormed_refuses_rt15 : (Instr.mrcIdMmfr1 0b1110#4 15).wellFormed = false := by decide

/-- R121's programs hold no refused form. -/
theorem test_admitted :
    readR0.admitted = true ∧ (Instr.mcrIdMmfr1Refused 0b1110#4 0).admitted = false ∧
    (Instr.mrcIdMmfr1 0b1110#4 15).admitted = false ∧ (Instr.mrcIdMmfr1 0b0000#4 0).admitted = false := by decide

/-! ### Decoding: words of section 2.5, bit by bit from 30_encoding.md R69, R70 -/

/-- cond 1110, 1110, opc1 000, 1, CRn 0000, Rt 0000, coproc 1111, opc2 101, 1, CRm 0001. -/
theorem test_decode_mrc_a32 :
    decode .a32 (0b1110#4 ++ 0b1110#4 ++ 0b000#3 ++ 1#1 ++ 0b0000#4 ++ 0b0000#4 ++ 0b1111#4 ++ 0b101#3 ++ 1#1 ++
      0b0001#4) = .ok (.mrcIdMmfr1 0b1110#4 0) := by rfl

/-- hw1 11101110 000 1 0000, hw2 Rt 1101, coproc 1111, opc2 101, 1, CRm 0001. -/
theorem test_decode_mrc_t32 :
    decode .t32 (0b11101110#8 ++ 0b000#3 ++ 1#1 ++ 0b0000#4 ++ 0b1101#4 ++ 0b1111#4 ++ 0b101#3 ++ 1#1 ++ 0b0001#4) =
      .ok (.mrcIdMmfr1 0b1110#4 13) := by rfl

theorem test_decode_mcr_a32 :
    decode .a32 (0b1110#4 ++ 0b1110#4 ++ 0b000#3 ++ 0#1 ++ 0b0000#4 ++ 0b0010#4 ++ 0b1111#4 ++ 0b101#3 ++ 1#1 ++
      0b0001#4) = .ok (.mcrIdMmfr1Refused 0b1110#4 2) := by rfl

theorem test_decode_mcr_t32 :
    decode .t32 (0b11101110#8 ++ 0b000#3 ++ 0#1 ++ 0b0000#4 ++ 0b0001#4 ++ 0b1111#4 ++ 0b101#3 ++ 1#1 ++ 0b0001#4) =
      .ok (.mcrIdMmfr1Refused 0b1110#4 1) := by rfl

/-- The A32 verdicts of section 2.5, in its order. -/
theorem test_verdicts :
    verdict .a32 0xEE100FB1#32 = .ok 0 ∧ verdict .a32 0xEE10EFB1#32 = .ok 14 ∧
    verdict .a32 0xEE10FFB1#32 = .error .rtIs15 ∧ verdict .a32 0x0E100FB1#32 = .error .condition ∧
    verdict .a32 0xFE100FB1#32 = .error .condition ∧ verdict .a32 0xEE000FB1#32 = .error .writeForm ∧
    verdict .a32 0xEE100F91#32 = .error .notThisRegister ∧ verdict .a32 0xEE100FD1#32 = .error .notThisRegister ∧
    verdict .a32 0xEE100FB2#32 = .error .notThisRegister ∧ verdict .a32 0xEE110FB1#32 = .error .notThisRegister ∧
    verdict .a32 0xEE300FB1#32 = .error .notThisRegister ∧ verdict .a32 0xEE100EB1#32 = .error .notThisRegister ∧
    verdict .a32 0xEE100FA1#32 = .error .notThisRegister ∧ verdict .a32 0xE1A00000#32 = .error .notThisRegister ∧
    verdict .a32 0x00000000#32 = .error .notThisRegister :=
  ⟨rfl, rfl, rfl, rfl, rfl, rfl, rfl, rfl, rfl, rfl, rfl, rfl, rfl, rfl, rfl⟩

/-- The byte columns of section 2.5 for `t` 7. -/
theorem test_bytes :
    encodeBytes .a32 (.mrcIdMmfr1 0b1110#4 7) = [0xB1#8, 0x7F#8, 0x10#8, 0xEE#8] ∧
    encodeBytes .t32 (.mrcIdMmfr1 0b1110#4 7) = [0x10#8, 0xEE#8, 0xB1#8, 0x7F#8] := by decide

theorem test_isIdMmfr1Read :
    readR0.record.isIdMmfr1Read = true ∧ (Instr.mcrIdMmfr1Refused 0b1110#4 0).record.isIdMmfr1Read = false := by decide

theorem test_assembler :
    (Instr.mrcIdMmfr1 0b1110#4 12).assembler = some "MRC p15, 0, r12, c0, c1, 5" ∧
    (Instr.mrcIdMmfr1 0b1110#4 13).assembler = some "MRC p15, 0, sp, c0, c1, 5" ∧
    (Instr.mrcIdMmfr1 0b1110#4 15).assembler = none := by decide

/-- The table's rows as the host asks for them. -/
theorem test_decodeTableWord :
    decodeTableWord 32 0xEE100FB1 = some readR0 ∧ decodeTableWord 32 0x0E100FB1 = some (.mrcIdMmfr1 0b0000#4 0) ∧
    decodeTableWord 32 0xEE000FB1 = some (.mcrIdMmfr1Refused 0b1110#4 0) ∧ decodeTableWord 32 0 = none := by decide

/-! ### The register's value: sections 2.1 to 2.3 and 2.6 -/

theorem test_fields : Field.all.map (fun f => (f.get 0x01234567#32).toNat) = [0, 1, 2, 3, 4, 5, 6, 7] := by decide

theorem test_defined :
    definedValue 0x12233322#32 = true ∧ definedValue 0x50000000#32 = false ∧ definedValue 0x43000000#32 = false ∧
    definedValue 0x40040000#32 = false ∧ definedValue 0x40030000#32 = true ∧ definedValue 0x40000003#32 = false := by
  decide

theorem test_permitted :
    permittedArmv8A 0x30000000#32 = true ∧ permittedArmv8A 0x10000000#32 = false ∧
    permittedArmv8A 0x40000001#32 = false := by decide

theorem test_supported :
    supportedOps .l1Hvd 0b0011#4 =
      some [.invalidateInstr, .invalidatePredictor, .invalidateData, .invalidateDataInstr, .cleanData,
        .cleanInvalidateData] ∧
    supportedOps .l1UniSW 0b0001#4 = some [.cleanLineSW] ∧ supportedOps .l1UniSW 0b0100#4 = none := by decide

theorem test_flushRequired :
    bpFlushRequired 0b0010#4 (.ttbChanged false) = some .required ∧
    bpFlushRequired 0b0010#4 (.ttbChanged true) = some .notListed ∧
    bpFlushRequired 0b0011#4 .tablesWritten = some .notRequired ∧
    bpFlushRequired 0b0000#4 .instrWritten = some .unstated ∧ bpFlushRequired 0b0101#4 .idChanged = none := by decide

theorem test_eventOfChange :
    eventOfChange false [.ttbcr] [.fcseProcessId] = some (.ttbChanged false) ∧
    eventOfChange true [.ttbcr] [.fcseProcessId] = some (.ttbChanged true) ∧
    eventOfChange true [] [.asid] = some .idChanged ∧ eventOfChange false [] [.fcseProcessId] = none := by decide

theorem test_flushesInTime :
    flushesInTime 0b0011#4 false [.event .instrWritten, .goOn] = false ∧
    flushesInTime 0b0011#4 false [.event .instrWritten, .bpFlush, .goOn] = true := by decide

theorem test_predictorPart :
    CacheOp.invalidateCache.hasPredictorPart true = true ∧ CacheOp.invalidateCache.hasPredictorPart false = false ∧
    CacheOp.invalidateData.hasPredictorPart true = false := by decide

/-- 10_state.md R38: absent, the register is not part of the state. -/
theorem test_sysRead :
    sysRead State.reset idMmfr1Tuple = some 0x40000000#32 ∧ sysRead (absent State.reset) idMmfr1Tuple = none := by decide

/-! ### The access -/

/-- The worked example of 40_sysreg_read.md R81 and program P1, as a step from the bytes in memory. -/
theorem test_step_worked_example :
    (nextOf (step (State.reset.withFetchWord 32 0xEE100FB1))).map (fun s => (s.x[0], s.pc, s.written[1])) =
      some (0x40000000#32, 0x8004#32, false) := by decide

/-- Program P7: the same in T32. -/
theorem test_step_worked_example_t32 :
    (nextOf (step ((inT32 State.reset).withFetchWord 32 0xEE100FB1))).map (fun s => (s.x[0], s.pc)) =
      some (0x40000000#32, 0x8004#32) := by decide

/-- Program P4: `HCR.TID3` traps `MRC` into `x[3]` to Hyp. -/
theorem test_trapHyp :
    faultOf (exec (.mrcIdMmfr1 0b1110#4 3) (launch .el1 true true true false true true)) =
      some (.trapHyp 0x03#6 3) := by decide

/-- Program P5: `HSTR_EL2.T0` traps to an AArch64 EL2. -/
theorem test_trapEL2AArch64 :
    faultOf (exec (.mrcIdMmfr1 0b1110#4 4) (launch .el1 true false true false false false)) =
      some (.trapEL2AArch64 0x03#6 4) := by decide

theorem test_mcr_refused :
    refusalOf (step (State.reset.withFetchWord 32 0xEE000FB1)) = some (.form .writeForm) := by decide

/-- Section 2.7: `0x0FEA0003 + (t << 5)`. -/
theorem test_informativeSyndrome :
    informativeSyndrome 0x03#6 readR0.record = 0x0FEA0003#32 ∧
    informativeSyndrome 0x03#6 (Instr.mrcIdMmfr1 0b1110#4 14).record = 0x0FEA01C3#32 := by decide

def bools : List Bool := [false, true]

/-- The outcomes over the 64 inputs of section 2.4 at EL1 with the register present. -/
def outcomesAtEL1 : List AccessOutcome :=
  bools.flatMap fun en => bools.flatMap fun a => bools.flatMap fun b => bools.flatMap fun c => bools.flatMap fun d =>
    bools.map fun e => accessOutcome (launch .el1 en a b c d e)

/-- "At EL1 with `P` = 1, of 64 combinations 40 read, 12 trap to AArch64 EL2 and 12 trap to Hyp" (section 2.4). -/
theorem test_outcome_counts :
    outcomesAtEL1.count .read = 40 ∧ outcomesAtEL1.count (.trapEL2AArch64 0x03#6) = 12 ∧
    outcomesAtEL1.count (.trapHyp 0x03#6) = 12 := by decide

/-- Reads at the end of the text (70_reset_and_hazards.md R121): the run goes no further. -/
theorem test_end_of_text : faultOf (step State.reset) = some .noInstruction := by decide

/-- In T32 one halfword that does not announce a second is refused, not waited for (30_encoding.md R74). -/
theorem test_t32_narrow : decodeBytes .t32 [0x00#8, 0xBF#8] = .error (.rejected .notThisRegister) := by decide

/-! ### Memory -/

theorem test_memWrite_big_endian :
    let s := memWrite { State.reset with cfg := { State.reset.cfg with dataEndian := .big } } 0xFFFFFFFF#32 2 0x1234#16
    s.mem = [(0, 0x34#8), (0xFFFFFFFF, 0x12#8)] ∧ memRead s 0xFFFFFFFF#32 2 = some 0x1234#16 := by decide

/-! ### Witnesses: each statement's hypotheses are met together -/

theorem witness_PermittedHoldsOfThreeValues :
    permittedArmv8A 0x20000000#32 = true ∧ configAdmitted State.reset.cfg = true ∧ State.reset.cfg.armv8a = true := by
  decide

theorem witness_ReservedValuesAreRejected :
    Field.reserved .bpred 0b0101#4 = true ∧ Field.reserved .l1Uni 0b0011#4 = true ∧ Field.reserved .l1Hvd 0b1111#4 = true ∧
    Field.reserved .l1HvdVA (Field.l1HvdVA.get (holding 0x40000003#32 State.reset).cfg.idmmfr1Value) = true := by decide

theorem witness_SupportedOperationsAccumulate :
    supportedOps .l1HvdSW 0b0010#4 ≠ none ∧ supportedOps .l1HvdSW 0b0011#4 ≠ none ∧ 0b0010#4 ≤ 0b0011#4 := by decide

theorem witness_FlushRequirementTable :
    (0b0101#4).toNat > 4 ∧ (0b1111#4).toNat > 4 ∧ Event.ttbChanged true ≠ .instrWritten ∧
    Field.bpred.reserved 0b0000#4 = false ∧ Field.bpred.reserved 0b0100#4 = false ∧
    configAdmitted State.reset.cfg = true ∧ State.reset.cfg.armv8a = true := by decide

theorem witness_EventOfEachChange :
    [TTBRegister.ttbr1] ≠ [] ∧ .asid ∈ [Identifier.asid] ∧
    ¬(.contextId ∈ [Identifier.fcseProcessId] ∨ .asid ∈ [Identifier.fcseProcessId] ∨
      (false = true ∧ .fcseProcessId ∈ [Identifier.fcseProcessId])) := by decide

theorem witness_FlushesInTimeExactlyWhen :
    bpFlushRequired 0b0001#4 .idChanged = some .required ∧ bpFlushRequired 0b0010#4 .idChanged = some .notListed ∧
    bpFlushRequired 0b0000#4 .idChanged = some .unstated ∧ (0b0101#4).toNat > 4 ∧
    .bpFlush ∉ [SoftwareAction.event .stageToggled, .goOn] ∧
    .event .instrWritten ∉ [SoftwareAction.event .stageToggled, .goOn] ∧
    flushesInTime 0b0001#4 false [.event .instrWritten, .bpFlush, .goOn] = true := by decide

theorem witness_DecodeEncodeAgree :
    readR0.encodableIn .t32 = true ∧ (Instr.mrcIdMmfr1 0b0000#4 15).encodableIn .a32 = true ∧
    (Instr.mcrIdMmfr1Refused 0b1110#4 15).encodableIn .t32 = true := by decide

theorem witness_DecodedWordEncodesBack :
    decode .a32 0x0E10FFB1#32 = .ok (.mrcIdMmfr1 0b0000#4 15) ∧ decode .t32 0xEE100FB1#32 = .ok readR0 :=
  ⟨rfl, rfl⟩

theorem witness_WordsMeetTheVerdictTable_a32 :
    (0xFE00FFB1#32 &&& 0x0FFF0FFF#32 = 0x0E000FB1#32) ∧
    (0xE1A00000#32 &&& 0x0FFF0FFF#32 ≠ 0x0E000FB1#32 ∧ 0xE1A00000#32 &&& 0x0FFF0FFF#32 ≠ 0x0E100FB1#32) ∧
    (0xFE100FB1#32 &&& 0x0FFF0FFF#32 = 0x0E100FB1#32 ∧ BitVec.extractLsb' 28 4 0xFE100FB1#32 ≠ 0b1110#4) ∧
    (0xEE10FFB1#32 &&& 0x0FFF0FFF#32 = 0x0E100FB1#32 ∧ BitVec.extractLsb' 28 4 0xEE10FFB1#32 = 0b1110#4 ∧
      BitVec.extractLsb' 12 4 0xEE10FFB1#32 = 0b1111#4) ∧
    (0xEE10EFB1#32 &&& 0x0FFF0FFF#32 = 0x0E100FB1#32 ∧ BitVec.extractLsb' 28 4 0xEE10EFB1#32 = 0b1110#4 ∧
      BitVec.extractLsb' 12 4 0xEE10EFB1#32 = BitVec.ofNat 4 (14 : Fin 15).val) := by decide

theorem witness_WordsMeetTheVerdictTable_t32 :
    (0xEE00FFB1#32 &&& 0xFFFF0FFF#32 = 0xEE000FB1#32) ∧
    (0x0E100FB1#32 &&& 0xFFFF0FFF#32 ≠ 0xEE000FB1#32 ∧ 0x0E100FB1#32 &&& 0xFFFF0FFF#32 ≠ 0xEE100FB1#32) ∧
    (0xEE10FFB1#32 &&& 0xFFFF0FFF#32 = 0xEE100FB1#32 ∧ BitVec.extractLsb' 12 4 0xEE10FFB1#32 = 0b1111#4) ∧
    (0xEE100FB1#32 &&& 0xFFFF0FFF#32 = 0xEE100FB1#32 ∧
      BitVec.extractLsb' 12 4 0xEE100FB1#32 = BitVec.ofNat 4 (0 : Fin 15).val) := by decide

theorem witness_InstructionLengths :
    decode .t32 0xEE00EFB1#32 = .ok (.mcrIdMmfr1Refused 0b1110#4 14) ∧ BitVec.extractLsb' 3 5 0xBF#8 ≠ 0b11101#5 :=
  ⟨rfl, by decide⟩

theorem witness_OtherLocationsAreRefused :
    (recordOfWord .a32 0xEE100F91#32).map (fun r => decide (r.loc ≠ idMmfr1Tuple)) = some true ∧
    (recordOfWord .t32 0xEE110FB1#32).map (fun r => decide (r.loc ≠ idMmfr1Tuple)) = some true := by decide

/-- EL2, EL3 with every control bit set, EL1 without EL2, EL1 under either kind of EL2 with the other pair set. -/
theorem witness_ReadWritesDestinationAndPc :
    (launch .el2 true true true true true true).cfg.el1CanUseAArch32 = true ∧
    accessOutcome (launch .el2 true true true true true true) = .read ∧
    accessOutcome (launch .el3 true false true true true true) = .read ∧
    accessOutcome (launch .el1 false true true true true true) = .read ∧
    accessOutcome (launch .el1 true false false true false true) = .read ∧
    accessOutcome (launch .el1 true true true false true false) = .read := by decide

theorem witness_ReadWritesDestinationAndPc_EL1 :
    let s := launch .el1 true true true false true false
    s.el = .el1 ∧ (s.el2Enabled = true → s.el2UsingAArch32 = false → s.hstrEL2T0 = false ∧ s.hcrEL2TID3 = false) ∧
      (s.el2Enabled = true → s.el2UsingAArch32 = true → s.hstrT0 = false ∧ s.hcrTID3 = false) := by decide

theorem witness_EL2AndEL3AlwaysRead :
    let s := launch .el3 true false true true true true
    s.cfg.el1CanUseAArch32 = true ∧ (s.el = .el2 ∨ s.el = .el3) := by decide

theorem witness_AbsentRegisterIsUndefined :
    (absent (launch .el3 true true true true true true)).cfg.el1CanUseAArch32 = false := by decide

theorem witness_EL0ReadIsUndefined : (launch .el0 true true true true true true).el = .el0 := by decide

/-- A state for each clause: the first condition with the third, the second with the fourth, each alone, and none. -/
theorem witness_EL1ConditionsInOrder :
    let c1 := fun s : State => decide (s.el2Enabled = true ∧ s.el2UsingAArch32 = false ∧ s.hstrEL2T0 = true)
    let c2 := fun s : State => decide (s.el2Enabled = true ∧ s.el2UsingAArch32 = true ∧ s.hstrT0 = true)
    let c3 := fun s : State => decide (s.el2Enabled = true ∧ s.el2UsingAArch32 = false ∧ s.hcrEL2TID3 = true)
    let c4 := fun s : State => decide (s.el2Enabled = true ∧ s.el2UsingAArch32 = true ∧ s.hcrTID3 = true)
    let conds := fun s : State => (c1 s, c2 s, c3 s, c4 s)
    State.reset.cfg.el1CanUseAArch32 = true ∧ (launch .el1 true false true false true false).el = .el1 ∧
    conds (launch .el1 true false true false true false) = (true, false, true, false) ∧
    conds (launch .el1 true true false true false true) = (false, true, false, true) ∧
    conds (launch .el1 true false false true true true) = (false, false, true, false) ∧
    conds (launch .el1 true true true false true true) = (false, false, false, true) ∧
    conds (launch .el1 false true true true true true) = (false, false, false, false) := by decide

theorem witness_EL1ShortForm :
    let s := launch .el1 true false false true false true
    let u := launch .el1 false true true true true true
    s.cfg.el1CanUseAArch32 = true ∧ s.el = .el1 ∧ s.el2UsingAArch32 = false ∧ u.el2Enabled = false ∧
      u.el2UsingAArch32 = true := by decide

theorem witness_RefusedFormsOfTheRead : 0b1111#4 ≠ 0b1110#4 ∧ 0b0000#4 ≠ 0b1110#4 := by decide

theorem witness_WriteFormIsRefused :
    0x0E00FFB1#32 &&& 0x0FFF0FFF#32 = 0x0E000FB1#32 ∧ 0xEE00FFB1#32 &&& 0xFFFF0FFF#32 = 0xEE000FB1#32 := by decide

/-- For ReadFrame, SecondReadOnlyAdvancesPc and NoInstructionWritesParametersOrControls; the destinations at both ends. -/
theorem witness_ReadFrame :
    (∃ s', exec (.mrcIdMmfr1 0b1110#4 0) State.reset = .next s') ∧
    (∃ s', exec (.mrcIdMmfr1 0b1110#4 14) State.reset = .next s') ∧ (3 : Fin 15).castSucc ≠ 0 ∧
    (14 : Fin 15).castSucc = 14 := ⟨⟨_, rfl⟩, ⟨_, rfl⟩, by decide, by decide⟩

theorem witness_SecondReadOnlyAdvancesPc :
    ∃ s', exec (.mrcIdMmfr1 0b1110#4 (14 : Fin 15).castSucc) (launch .el3 true true true true true true) = .next s' :=
  ⟨_, rfl⟩

theorem witness_NoInstructionWritesParametersOrControls :
    ∃ s', exec readR0 (launch .el2 true true true true true true) = .next s' := ⟨_, rfl⟩

/-- Two states that agree on the eight inputs and on nothing else. -/
theorem witness_OutcomeDependsOnEightInputsOnly :
    let s := launch .el1 true true false true false false
    let u := (inT32 (holding 0x20000000#32 s)).advance
    s.cfg.el1CanUseAArch32 = u.cfg.el1CanUseAArch32 ∧ s.el = u.el ∧ s.el2Enabled = u.el2Enabled ∧
      s.el2UsingAArch32 = u.el2UsingAArch32 ∧ s.hstrEL2T0 = u.hstrEL2T0 ∧ s.hstrT0 = u.hstrT0 ∧
      s.hcrEL2TID3 = u.hcrEL2TID3 ∧ s.hcrTID3 = u.hcrTID3 ∧ s ≠ u := by decide

theorem witness_EL0CompletesNothing : (launch .el0 false false false false false false).el = .el0 := by decide

/-- The three ways decoding can go, from states that pass the launch checks. -/
theorem witness_StepRunsTheDecodedInstruction :
    let s := State.reset.withFetchWord 32 0xEE100FB1
    let u := State.reset.withFetchWord 32 0xE1A00000
    (configAdmitted s.cfg = true ∧ pcAligned s.cfg.instrSet s.pc = true ∧
      decodeBytes s.cfg.instrSet (fetchBytes s) = .ok (readR0, [])) ∧
    (configAdmitted u.cfg = true ∧ pcAligned u.cfg.instrSet u.pc = true ∧
      decodeBytes u.cfg.instrSet (fetchBytes u) = .error (.rejected .notThisRegister)) ∧
    decodeBytes State.reset.cfg.instrSet (fetchBytes State.reset) = .error .truncated :=
  ⟨⟨rfl, rfl, rfl⟩, ⟨rfl, rfl, rfl⟩, rfl⟩

theorem witness_MisalignedPcIsRefused :
    let s := { State.reset with pc := 0x8002#32 }
    let u := inT32 { State.reset with pc := 0x8001#32 }
    (configAdmitted s.cfg = true ∧ s.cfg.instrSet = .a32 ∧ s.pc.toNat % 4 ≠ 0) ∧
    (configAdmitted u.cfg = true ∧ u.cfg.instrSet = .t32 ∧ u.pc.toNat % 2 ≠ 0) ∧
    (nextOf (step (State.reset.withFetchWord 32 0xEE100FB1))).isSome = true ∧
    (nextOf (step ((inT32 { State.reset with pc := 0x8002#32 }).withFetchWord 32 0xEE100FB1))).isSome = true := by
  decide

/-- At the top of the address space, in both sets. -/
theorem witness_PlacedWordIsExecuted :
    let s := { State.reset with pc := 0xFFFFFFFC#32 }
    let u := inT32 { State.reset with pc := 0xFFFFFFFE#32 }
    configAdmitted s.cfg = true ∧ pcAligned s.cfg.instrSet s.pc = true ∧ configAdmitted u.cfg = true ∧
      pcAligned u.cfg.instrSet u.pc = true := by decide

theorem witness_StepKeepsTheInvariant :
    Inv (State.reset.withFetchWord 32 0xEE10EFB1) ∧
    (nextOf (step (State.reset.withFetchWord 32 0xEE10EFB1))).isSome = true := by decide

theorem witness_StepsLeaveMemoryAlone :
    (nextOf (step (State.reset.withFetchWord 32 0xEE101FB1))).isSome = true := by decide

theorem witness_RunsReadTheConstant :
    ∃ s', Host.Core.run core 1 (State.reset.withFetchWord 32 0xEE100FB1) = .next s' := ⟨_, rfl⟩

/-- Program P3: at EL0 the run stops where it began. -/
theorem witness_AccessFaultsStopAtTheFirstInstruction :
    let s := (launch .el0 true true false false false true).withFetchWord 32 0xEE100FB1
    runEnd 2 s = .faulted s .undefined ∧ accessFault .undefined = true := by decide

/-- A final run, and each stop: absent, EL0, each trap, a misaligned base. -/
theorem witness_ProgramsEndFinalOrFaultAtBase :
    let s := launch .el1 true true true false true false
    ProgramAdmitted [readR0, .mrcIdMmfr1 0b1110#4 14] ∧ configAdmitted s.cfg = true ∧
    pcAligned s.cfg.instrSet 0xFFFFFFFC#32 = true ∧ pcAligned s.cfg.instrSet 0xFFFFFFFE#32 = false ∧
    s.cfg.el1CanUseAArch32 = true ∧ s.el ≠ .el0 ∧
    ¬(s.el = .el1 ∧ s.el2Enabled = true ∧ s.el2UsingAArch32 = false ∧ (s.hstrEL2T0 = true ∨ s.hcrEL2TID3 = true)) ∧
    ¬(s.el = .el1 ∧ s.el2Enabled = true ∧ s.el2UsingAArch32 = true ∧ (s.hstrT0 = true ∨ s.hcrTID3 = true)) ∧
    (absent s).cfg.el1CanUseAArch32 = false ∧ accessOutcome (launch .el1 true false true false false false) ≠ .read ∧
    accessOutcome (launch .el1 true true false false false true) ≠ .read := by decide

/-- Reads into `x[0]` and `x[14]` around the top of the address space: a final state at the end of the text. -/
theorem test_runProgram :
    (match runProgram State.reset 0xFFFFFFFC#32 [readR0, .mrcIdMmfr1 0b1110#4 14] with
      | .final s => some (s.pc, s.x[0], s.x[14], s.written[1])
      | .faulted _ _ => none
      | .refused _ _ => none) = some (0x00000004#32, 0x40000000#32, 0x40000000#32, false) := by decide

theorem witness_MemoryReadsWhatWasWritten : (4 : Nat) ≤ 2 ^ 32 ∧ ∀ k < 4, (0x9000 : Nat) ≠ addrPlus 0x8000#32 k := by
  decide

end Sys2Proof.Tests
end

section
/-! PROOFS. 00_scope.md R8, 20_memory.md R58: what `MemWrite` stores, `MemRead` gives back, in either byte order. -/

namespace Sys2Proof.Machine

@[simp] theorem memWrite_mem (s : State) (a : Word) (n : Nat) (v : BitVec (8 * n)) :
    (memWrite s a n v).mem =
      Memory.writeBytes s.mem a (inDataOrder s.cfg.dataEndian (bytesOfNat n v.toNat)) := rfl

@[simp] theorem length_bytesOfNat (n v : Nat) : (bytesOfNat n v).length = n := by
  induction n generalizing v with
  | zero => rfl
  | succ n ih => simp [bytesOfNat, ih]

@[simp] theorem length_inDataOrder (e : Endian) (bs : List Byte) : (inDataOrder e bs).length = bs.length := by
  cases e with
  | little => rfl
  | big => exact List.length_reverse

@[simp] theorem inDataOrder_inDataOrder (e : Endian) (bs : List Byte) : inDataOrder e (inDataOrder e bs) = bs := by
  cases e with
  | little => rfl
  | big => exact List.reverse_reverse bs

/-- The `n` bytes of a number spell its low `8n` bits. -/
theorem natOfBytes_bytesOfNat (n v : Nat) : natOfBytes (bytesOfNat n v) = v % 256 ^ n := by
  induction n generalizing v with
  | zero => simp [bytesOfNat, natOfBytes, Nat.mod_one]
  | succ n ih =>
    have hsplit : v % 256 ^ (n + 1) = v % 256 + 256 * (v / 256 % 256 ^ n) := by
      rw [Nat.pow_succ', Nat.mod_mul]
    simp [bytesOfNat, natOfBytes, ih, hsplit]

/-- The bytes of a value spell the value. -/
@[simp] theorem ofNat_natOfBytes_bytesOfNat {n : Nat} (v : BitVec (8 * n)) :
    BitVec.ofNat (8 * n) (natOfBytes (bytesOfNat n v.toNat)) = v := by
  have hpow : 2 ^ (8 * n) = 256 ^ n := Nat.pow_mul 2 8 n
  apply BitVec.eq_of_toNat_eq
  rw [natOfBytes_bytesOfNat, ← hpow, BitVec.toNat_ofNat, Nat.mod_mod, Nat.mod_eq_of_lt v.isLt]

/-- A stored run no longer than the address space reads back whole, also where it wraps past the top. -/
theorem Memory.readBytes_writeBytes (m : List Host.Cell) (a : Word) {bs : List Byte} (hl : bs.length ≤ 2 ^ 32) :
    Memory.readBytes (Memory.writeBytes m a bs) a bs.length = some bs :=
  Memory.readBytes_of_reads fun _ hk => Memory.read_writeBytes hl hk

theorem memRead_memWrite (s : State) (a : Word) {n : Nat} (v : BitVec (8 * n)) (hn : n ≤ 2 ^ 32) :
    memRead (memWrite s a n v) a n = some v := by
  have hbytes := Memory.readBytes_writeBytes s.mem a
    (bs := inDataOrder s.cfg.dataEndian (bytesOfNat n v.toNat)) (by simpa using hn)
  rw [length_inDataOrder, length_bytesOfNat] at hbytes
  simp [memRead, hbytes]

theorem read_memWrite_ne (s : State) (a : Word) {n : Nat} (v : BitVec (8 * n)) {b : Nat}
    (hb : ∀ k < n, b ≠ addrPlus a k) : Memory.read (memWrite s a n v).mem b = Memory.read s.mem b :=
  Memory.read_writeBytes_ne (by simpa using hb)

/-- Settles O45: the bytes of a run of at most 2^32 stand at different addresses, so each reads back, and the data byte
order is its own inverse. -/
theorem memoryReadsWhatWasWritten : Obligations.MemoryReadsWhatWasWritten :=
  fun s a _ v hn => ⟨memRead_memWrite s a v hn, fun _ hb => read_memWrite_ne s a v hb⟩

end Sys2Proof.Machine
end

section
/-! PROOFS. 00_scope.md R6: a step commutes with a change of the four parameters that no rule of a step reads. -/

namespace Sys2Proof.Machine

/-- The state with `FCSE_SUPPORTED`, `BP_IMPLEMENTED`, `L1_KIND` and `DATA_ENDIAN` replaced (00_scope.md R6). -/
def State.withUnusedParameters (f b : Bool) (k : L1Kind) (e : Endian) (s : State) : State :=
  { s with cfg := { s.cfg with fcseSupported := f, bpImplemented := b, l1Kind := k, dataEndian := e } }

/-- A result with its next state, where it has one, replaced: what `Obligations.UnusedParametersHaveNoEffect` says of
a step, as one function. -/
def mapNext (g : State → State) : Result → Result
  | .next s => .next (g s)
  | .fault f => .fault f
  | .refused r => .refused r

section withUnusedParameters
variable (f b : Bool) (k : L1Kind) (e : Endian) (s : State)

@[simp] theorem withUnusedParameters_instrSet :
    (s.withUnusedParameters f b k e).cfg.instrSet = s.cfg.instrSet := rfl

@[simp] theorem launchRefusal_withUnusedParameters :
    launchRefusal (s.withUnusedParameters f b k e) = launchRefusal s := rfl

@[simp] theorem fetchBytes_withUnusedParameters :
    fetchBytes (s.withUnusedParameters f b k e) = fetchBytes s := rfl

@[simp] theorem accessOutcome_withUnusedParameters :
    accessOutcome (s.withUnusedParameters f b k e) = accessOutcome s := rfl

/-- What a read writes, it writes whatever the four parameters are. -/
theorem readEffect_withUnusedParameters (d : Fin 15) :
    ((s.withUnusedParameters f b k e).writeX d (s.withUnusedParameters f b k e).idMmfr1).advance =
      (s.writeX d s.idMmfr1).advance.withUnusedParameters f b k e := rfl

theorem execMrcIdMmfr1_withUnusedParameters (c : BitVec 4) (t : Fin 16) :
    execMrcIdMmfr1 c t (s.withUnusedParameters f b k e) =
      mapNext (State.withUnusedParameters f b k e) (execMrcIdMmfr1 c t s) := by
  unfold execMrcIdMmfr1
  cases conditionAdmitted c with
  | false => rfl
  | true =>
    cases destOf t with
    | none => rfl
    | some d =>
      rw [accessOutcome_withUnusedParameters]
      cases (accessOutcome s).fault? t with
      | some stop => rfl
      | none => exact congrArg Host.Outcome.next (readEffect_withUnusedParameters f b k e s d)

theorem exec_withUnusedParameters (i : Instr) :
    exec i (s.withUnusedParameters f b k e) = mapNext (State.withUnusedParameters f b k e) (exec i s) := by
  cases i with
  | mrcIdMmfr1 c t => exact execMrcIdMmfr1_withUnusedParameters f b k e s c t
  | mcrIdMmfr1Refused c t => rfl

theorem step_withUnusedParameters :
    step (s.withUnusedParameters f b k e) = mapNext (State.withUnusedParameters f b k e) (step s) := by
  unfold step
  rw [launchRefusal_withUnusedParameters, withUnusedParameters_instrSet, fetchBytes_withUnusedParameters]
  cases launchRefusal s with
  | some r => rfl
  | none =>
    rcases decodeBytes s.cfg.instrSet (fetchBytes s) with err | ⟨i, rest⟩
    · cases err <;> rfl
    · exact exec_withUnusedParameters f b k e s i

end withUnusedParameters

/-- Settles O41: the launch checks, the fetch and the access read none of the four parameters, and the read's effect
commutes with their change. -/
theorem unusedParametersHaveNoEffect : Obligations.UnusedParametersHaveNoEffect := by
  intro s f b k e
  have hstep := step_withUnusedParameters f b k e s
  cases h : step s <;> rw [h] at hstep <;> exact hstep

end Sys2Proof.Machine
end

section
/-! PROOFS. 10_state.md R35, R39 to R48, R52: what every step keeps, and the state after reset. -/

namespace Sys2Proof.Machine

open Sys2Proof.Safety

/-! ### The alignment of `pc` (20_memory.md R59) -/

theorem pcAligned_a32_iff (pc : Word) : pcAligned .a32 pc = true ↔ pc.toNat % 4 = 0 := by
  rw [pcAligned, beq_iff_eq, ← BitVec.toNat_inj, BitVec.extractLsb'_toNat]
  rfl

theorem pcAligned_t32_iff (pc : Word) : pcAligned .t32 pc = true ↔ pc.toNat % 2 = 0 := by
  rw [pcAligned, beq_iff_eq, ← BitVec.toNat_inj, BitVec.extractLsb'_toNat]
  rfl

/-- Advancing keeps alignment, also where `pc` wraps: 2^32 is a multiple of 4 (10_state.md R40). -/
theorem pcAligned_add_four {is : InstrSet} {pc : Word} (h : pcAligned is pc = true) :
    pcAligned is (pc + 4#32) = true := by
  have hadd : (pc + 4#32).toNat = (pc.toNat + 4) % 2 ^ 32 := BitVec.toNat_add pc 4#32
  cases is with
  | a32 => rw [pcAligned_a32_iff] at h ⊢; omega
  | t32 => rw [pcAligned_t32_iff] at h ⊢; omega

/-! ### The general registers (10_state.md R48, R52) -/

/-- A register is marked as written after a write of register `d` exactly if it is `d` or was marked before. -/
theorem State.written_writeX_iff (s : State) (d j : Fin 15) (v : Word) :
    (s.writeX d v).written[j] = true ↔ d = j ∨ s.written[j] = true := by
  simp [Vector.getElem_set, Fin.ext_iff]

/-- Writing the constant keeps it in every written register. -/
theorem State.readX_of_written_writeX {s : State} {v : Word} (d : Fin 15)
    (h : ∀ j : Fin 15, s.written[j] = true → s.readX j = v) (j : Fin 15)
    (hj : (s.writeX d v).written[j] = true) : (s.writeX d v).readX j = v := by
  by_cases hjd : j = d
  · rw [hjd, State.readX_writeX_same]
  · rw [State.readX_writeX_ne s v hjd]
    exact h j (((s.written_writeX_iff d j v).1 hj).resolve_left (Ne.symm hjd))

theorem reset_written (i : Fin 15) : State.reset.written[i] = false := by
  simp [State.reset]

theorem reset_configAdmitted : configAdmitted State.reset.cfg = true := by decide

/-! ### The invariant -/

/-- The effect of a read keeps the invariant: it writes the constant and adds 4 to `pc`. -/
theorem readEffect_inv {s : State} (d : Fin 15) (h : Inv s) : Inv (s.writeX d s.idMmfr1).advance := by
  obtain ⟨hcfg, hpc, hmem, hregs⟩ := h
  exact ⟨hcfg, pcAligned_add_four hpc, hmem, State.readX_of_written_writeX d hregs⟩

/-- Settles O37: a step that completes has the effect of a read, which keeps the invariant. -/
theorem stepKeepsTheInvariant : Obligations.StepKeepsTheInvariant := by
  intro s s' hinv hstep
  obtain ⟨-, d, rfl⟩ := step_next_effect hstep
  exact readEffect_inv d hinv

/-- Settles O38: the reset configuration is admitted, `pc` is 0x8000, no text is listed and no register is written. -/
theorem resetMeetsTheInvariant : Obligations.ResetMeetsTheInvariant := by
  refine ⟨reset_configAdmitted, (pcAligned_a32_iff _).2 rfl, reset_mem_wf, fun d hd => ?_⟩
  rw [reset_written] at hd
  cases hd

/-- Settles O39: `ID_MMFR1` is the parameter itself, and reset marks no register and lists no byte. -/
theorem resetLeavesRegistersUnwritten : Obligations.ResetLeavesRegistersUnwritten :=
  ⟨rfl, reset_configAdmitted, rfl, reset_written, Memory.read_nil⟩

/-- Settles O32: an instruction that completes has the effect of a read, which writes a register, its mark and `pc`. -/
theorem noInstructionWritesParametersOrControls : Obligations.NoInstructionWritesParametersOrControls := by
  intro i s s' h
  obtain ⟨-, d, -, rfl⟩ := exec_next h
  exact ⟨rfl, rfl, rfl, rfl, rfl, rfl, rfl, rfl⟩

end Sys2Proof.Machine
end

section
/-! PROOFS. 10_state.md R14, R34, R35, R49, R50: the eight fields of the register and the sets of its values. -/

namespace Sys2Proof.Machine

/-! ### Fields and composition (R14) -/

/-- What holds of every field, field by field, in the order of the register diagram. -/
theorem Field.forall_iff {p : Field → Prop} :
    (∀ f, p f) ↔
      p .bpred ∧ p .l1TstCln ∧ p .l1Uni ∧ p .l1Hvd ∧ p .l1UniSW ∧ p .l1HvdSW ∧ p .l1UniVA ∧ p .l1HvdVA :=
  ⟨fun h => ⟨h _, h _, h _, h _, h _, h _, h _, h _⟩,
    fun ⟨h0, h1, h2, h3, h4, h5, h6, h7⟩ f => by cases f <;> assumption⟩

theorem Field.mem_all (f : Field) : f ∈ Field.all := by
  cases f <;> decide

/-- Neighbouring extractions join, so the eight fields of a value are the value. -/
theorem Field.compose_get (v : Word) : Field.compose (fun f => f.get v) = v := by
  simp (disch := decide) only [Field.compose, Field.get, Field.low,
    BitVec.extractLsb'_append_extractLsb'_eq_extractLsb']
  exact BitVec.extractLsb'_eq_self

/-- Extraction passes the fields below it and meets none above it. -/
theorem Field.get_compose (g : Field → BitVec 4) (f : Field) : f.get (Field.compose g) = g f := by
  unfold Field.get Field.compose
  cases f <;>
    simp (disch := decide) only [Field.low, BitVec.extractLsb'_append_eq_of_le,
      BitVec.extractLsb'_append_eq_of_add_le] <;>
    exact BitVec.extractLsb'_eq_self

/-- Settles O1: composition undoes extraction and extraction undoes composition. -/
theorem fieldsPartitionTheRegister : Obligations.FieldsPartitionTheRegister :=
  ⟨fun _ => ⟨rfl, rfl, rfl, rfl, rfl, rfl, rfl, rfl⟩, Field.compose_get, Field.get_compose⟩

theorem Field.compose_injective : Function.Injective Field.compose :=
  Function.LeftInverse.injective (g := fun v f => f.get v) fun g => funext (Field.get_compose g)

/-- The fields of a value determine it. -/
theorem Field.eq_of_get {v w : Word} (h : ∀ f : Field, f.get v = f.get w) : v = w := by
  rw [← Field.compose_get v, ← Field.compose_get w, funext h]

/-! ### Defined values (R49) -/

theorem definedValue_iff (v : Word) : definedValue v = true ↔ ∀ f : Field, f.get v ∈ f.definedValues := by
  simp [definedValue, Field.mem_all]

/-- The largest defined value of a field (10_state.md R49). -/
def Field.largest : Field → Nat
  | .bpred => 4
  | .l1TstCln | .l1Uni | .l1UniVA | .l1HvdVA => 2
  | .l1Hvd | .l1UniSW | .l1HvdSW => 3

/-- The defined values of a field are those from 0 to its largest. -/
theorem Field.mem_definedValues_iff (f : Field) (b : BitVec 4) : b ∈ f.definedValues ↔ b.toNat ≤ f.largest := by
  revert b
  cases f <;> decide

/-- The eight fields as a finite type, for counting choices of field values. -/
abbrev fieldFintype : Fintype Field := ⟨⟨Field.all, by decide⟩, Field.mem_all⟩

/-- The choices of a defined value for every field. -/
def definedChoices : Finset (Field → BitVec 4) :=
  letI := fieldFintype
  Fintype.piFinset fun f => f.definedValues.toFinset

theorem mem_definedChoices_iff (g : Field → BitVec 4) : g ∈ definedChoices ↔ ∀ f, g f ∈ f.definedValues := by
  simp [definedChoices]

/-- The number of choices is the product of the numbers of defined values (10_state.md R49). -/
theorem card_definedChoices : definedChoices.card = 25920 := by
  let := fieldFintype
  calc
    definedChoices.card = ∏ f : Field, f.definedValues.toFinset.card := Fintype.card_piFinset _
    _ = 25920 := rfl

/-- The defined values are the compositions of the choices. -/
theorem setOf_definedValue : {v : Word | definedValue v = true} = Field.compose '' definedChoices := by
  ext v
  simp only [Set.mem_ofPred_eq, Set.mem_image, Finset.mem_coe, mem_definedChoices_iff, definedValue_iff]
  constructor
  · intro h
    exact ⟨fun f => f.get v, h, Field.compose_get v⟩
  · rintro ⟨g, hg, rfl⟩ f
    rw [Field.get_compose]
    exact hg f

/-- Settles O2: the bounds field by field, and the count through composition, which is injective. -/
theorem definedHoldsOf25920Values : Obligations.DefinedHoldsOf25920Values := by
  refine ⟨fun v => ?_, ?_⟩
  · rw [definedValue_iff, Field.forall_iff]
    simp only [Field.mem_definedValues_iff]
    rfl
  · rw [setOf_definedValue, Set.ncard_image_of_injective _ Field.compose_injective, Set.ncard_coe_finset,
      card_definedChoices]

/-! ### Permitted values (R50) -/

theorem permittedArmv8A_iff (v : Word) : permittedArmv8A v = true ↔ ∀ f : Field, f.get v ∈ f.permittedValues := by
  simp [permittedArmv8A, Field.mem_all]

theorem Field.permittedValues_subset (f : Field) : f.permittedValues ⊆ f.definedValues := by
  cases f <;> decide

theorem definedValue_of_permittedArmv8A {v : Word} (h : permittedArmv8A v = true) : definedValue v = true :=
  (definedValue_iff v).2 fun f => f.permittedValues_subset ((permittedArmv8A_iff v).1 h f)

theorem permittedArmv8A_iff_fields (v : Word) : permittedArmv8A v = true ↔
    (v.extractLsb' 28 4 = 0b0010#4 ∨ v.extractLsb' 28 4 = 0b0011#4 ∨ v.extractLsb' 28 4 = 0b0100#4) ∧
    v.extractLsb' 24 4 = 0#4 ∧ v.extractLsb' 20 4 = 0#4 ∧ v.extractLsb' 16 4 = 0#4 ∧ v.extractLsb' 12 4 = 0#4 ∧
    v.extractLsb' 8 4 = 0#4 ∧ v.extractLsb' 4 4 = 0#4 ∧ v.extractLsb' 0 4 = 0#4 := by
  rw [permittedArmv8A_iff, Field.forall_iff]
  simp [Field.permittedValues, Field.get, Field.low]

/-- Each of the three values has the BPred field of one case and every other field 0. -/
theorem permittedArmv8A_iff_values (v : Word) :
    permittedArmv8A v = true ↔ v = 0x20000000#32 ∨ v = 0x30000000#32 ∨ v = 0x40000000#32 := by
  constructor
  · intro h
    obtain ⟨hb, hrest⟩ := (permittedArmv8A_iff_fields v).1 h
    rcases hb with hb | hb | hb
    · exact .inl (Field.eq_of_get (Field.forall_iff.2 ⟨hb, hrest⟩))
    · exact .inr (.inl (Field.eq_of_get (Field.forall_iff.2 ⟨hb, hrest⟩)))
    · exact .inr (.inr (Field.eq_of_get (Field.forall_iff.2 ⟨hb, hrest⟩)))
  · rintro (rfl | rfl | rfl) <;> decide

theorem configAdmitted_iff (c : Config) : configAdmitted c = true ↔
    definedValue c.idmmfr1Value = true ∧ (c.armv8a = true → permittedArmv8A c.idmmfr1Value = true) := by
  cases h : c.armv8a <;> simp [configAdmitted, h]

/-- Settles O3: the fields of a value determine it, and each permitted field value is a defined one. -/
theorem permittedHoldsOfThreeValues : Obligations.PermittedHoldsOfThreeValues :=
  ⟨permittedArmv8A_iff_fields, permittedArmv8A_iff_values, fun _ => definedValue_of_permittedArmv8A,
    fun c hc ha => (permittedArmv8A_iff_values _).1 (((configAdmitted_iff c).1 hc).2 ha)⟩

/-! ### Reserved values (R35) -/

theorem Field.reserved_iff (f : Field) (b : BitVec 4) : f.reserved b = true ↔ b ∉ f.definedValues := by
  simp [Field.reserved]

theorem supportedOps_of_reserved {f : Field} {b : BitVec 4} (h : f.reserved b = true) : supportedOps f b = none := by
  simp [supportedOps, h]

theorem bpredMeaning_of_reserved {b : BitVec 4} (h : Field.bpred.reserved b = true) : bpredMeaning b = none := by
  revert b
  decide

theorem bpFlushRequired_of_reserved {b : BitVec 4} (e : Event) (h : Field.bpred.reserved b = true) :
    bpFlushRequired b e = none := by
  simp [bpFlushRequired, bpredMeaning_of_reserved h]

theorem configAdmitted_of_reserved {c : Config} {f : Field} (h : f.reserved (f.get c.idmmfr1Value) = true) :
    configAdmitted c = false := by
  rw [Bool.eq_false_iff]
  intro hc
  obtain ⟨hdef, -⟩ := (configAdmitted_iff c).1 hc
  exact (f.reserved_iff _).1 h ((definedValue_iff _).1 hdef f)

theorem step_of_not_configAdmitted {s : State} (h : configAdmitted s.cfg = false) :
    step s = .refused .configuration := by
  simp [step, launchRefusal, h]

/-- Settles O4: a reserved field value is in no table, and a configuration that holds one fails the first check of a
step. -/
theorem reservedValuesAreRejected : Obligations.ReservedValuesAreRejected := by
  refine ⟨fun f b h => ⟨supportedOps_of_reserved h, ?_⟩, fun s f h => ?_⟩
  · rintro rfl
    exact ⟨bpredMeaning_of_reserved h, fun e => bpFlushRequired_of_reserved e h⟩
  · exact step_of_not_configAdmitted (configAdmitted_of_reserved h)

/-! ### Supported operations (R34) -/

/-- A defined value reports the operations of its own row and of every row below it. -/
theorem mem_supportedOps_iff {f : Field} {b : BitVec 4} {ops : List CacheOp} (h : supportedOps f b = some ops)
    (op : CacheOp) : op ∈ ops ↔ ∃ k ≤ b.toNat, op ∈ rowOps f k := by
  unfold supportedOps at h
  split at h
  · cases h
  · obtain rfl := Option.some.inj h
    simp only [List.mem_flatMap, List.mem_range, Nat.lt_succ_iff]

/-- A larger value takes in every row a smaller one takes in. -/
theorem supportedOps_subset {f : Field} {b b' : BitVec 4} {ops ops' : List CacheOp} (h : supportedOps f b = some ops)
    (h' : supportedOps f b' = some ops') (hle : b ≤ b') : ops ⊆ ops' := by
  intro op hop
  obtain ⟨k, hk, hrow⟩ := (mem_supportedOps_iff h op).1 hop
  exact (mem_supportedOps_iff h' op).2 ⟨k, hk.trans hle, hrow⟩

theorem supportedOps_bpred (b : BitVec 4) : supportedOps .bpred b = none := by
  simp [supportedOps]

/-- Settles O5: the rows by evaluation of the tables, and the superset order by inclusion of the rows. -/
theorem supportedOperationsAccumulate : Obligations.SupportedOperationsAccumulate := by
  refine ⟨?_, ?_, ?_, ?_, ?_, ?_, ?_, fun _ _ _ _ _ => supportedOps_subset, supportedOps_bpred⟩ <;> decide

end Sys2Proof.Machine
end

section
/-! PROOFS. 20_memory.md R53 to R55: the register is at one location of the encoding space. -/

namespace Sys2Proof.Machine

/-- Bits taken from bits of a word are bits of the word. -/
theorem extractLsb'_extractLsb' {n : Nat} (x : BitVec n) (outer len : Nat) {inner width : Nat}
    (h : inner + len ≤ width) :
    (x.extractLsb' outer width).extractLsb' inner len = x.extractLsb' (outer + inner) len := by
  apply BitVec.eq_of_getLsbD_eq
  intro i hi
  have hwidth : inner + i < width := by omega
  simp [hi, hwidth, Nat.add_assoc]

/-- The location that the layouts of 30_encoding.md R69 and R70 read from a word. -/
def locOfWord (w : Word) : SysRegTuple :=
  { coproc := w.extractLsb' 8 4
    opc1 := w.extractLsb' 21 3
    crn := w.extractLsb' 16 4
    crm := w.extractLsb' 0 4
    opc2 := w.extractLsb' 5 3 }

theorem recordOfWord_loc {is : InstrSet} {w : Word} {r : AccessRecord} (h : recordOfWord is w = some r) :
    r.loc = locOfWord w := by
  unfold recordOfWord at h
  split at h
  · obtain rfl := Option.some.inj h
    rfl
  · cases h

/-- The location fields lie in the two parts that the masks of either form fix. -/
theorem locOfWord_eq_parts (w : Word) :
    locOfWord w =
      { coproc := (w.extractLsb' 0 12).extractLsb' 8 4
        opc1 := (w.extractLsb' 16 12).extractLsb' 5 3
        crn := (w.extractLsb' 16 12).extractLsb' 0 4
        crm := (w.extractLsb' 0 12).extractLsb' 0 4
        opc2 := (w.extractLsb' 0 12).extractLsb' 5 3 } := by
  simp only [extractLsb'_extractLsb', Nat.reduceAdd, Nat.reduceLeDiff]
  rfl

/-- A word that decodes spells the register's own location, in the read form and in the write form. -/
theorem locOfWord_of_decode_ok {is : InstrSet} {w : Word} {i : Instr} (h : decode is w = .ok i) :
    locOfWord w = idMmfr1Tuple := by
  rw [locOfWord_eq_parts]
  rcases decode_ok_cases h with ⟨hw, -⟩ | ⟨hr, -⟩
  · obtain ⟨-, hhigh, hlow⟩ := (isWrite_iff is w).1 hw
    rw [hhigh, hlow]
    rfl
  · obtain ⟨-, hhigh, hlow⟩ := (isRead_iff is w).1 hr
    rw [hhigh, hlow]
    rfl

theorem decode_of_locOfWord_ne {is : InstrSet} {w : Word} (h : locOfWord w ≠ idMmfr1Tuple) :
    decode is w = .error .notThisRegister := by
  cases hd : decode is w with
  | error r => rw [decode_error hd]
  | ok i => exact absurd (locOfWord_of_decode_ok hd) h

theorem sysRead_eq_some_iff (s : State) (loc : SysRegTuple) (v : Word) :
    sysRead s loc = some v ↔ loc = idMmfr1Tuple ∧ s.cfg.el1CanUseAArch32 = true ∧ v = s.cfg.idmmfr1Value := by
  by_cases hloc : loc = idMmfr1Tuple
  · rw [hloc, sysRead_idMmfr1, idMmfr1Present_eq_some, State.idMmfr1, eq_comm (a := v)]
    exact (and_iff_right rfl).symm
  · simp only [sysRead_other s hloc, hloc, false_and, reduceCtorEq]

/-- Settles O15: a word that decodes has the register's location in its fields, and `SysRead` compares with that
location. -/
theorem otherLocationsAreRefused : Obligations.OtherLocationsAreRefused :=
  ⟨fun _ _ _ hr hloc => decode_of_locOfWord_ne (recordOfWord_loc hr ▸ hloc), sysRead_eq_some_iff⟩

end Sys2Proof.Machine
end

section
/-! PROOFS. 20_memory.md R58, R59: what a step fetches and executes, and the alignment of `pc`. -/

namespace Sys2Proof.Machine

/-! ### What a step executes (R58) -/

theorem step_of_decodeBytes_ok {s : State} {i : Instr} {rest : List Byte} (hlaunch : launchRefusal s = none)
    (hd : decodeBytes s.cfg.instrSet (fetchBytes s) = .ok (i, rest)) : step s = exec i s := by
  simp only [step, hlaunch, hd]

theorem step_of_decodeBytes_error {s : State} {e : DecodeError} (hlaunch : launchRefusal s = none)
    (hd : decodeBytes s.cfg.instrSet (fetchBytes s) = .error e) : step s = stopOfDecodeError e := by
  simp only [step, hlaunch, hd]

/-- Settles O34: the three ways decoding can go, after the launch checks. -/
theorem stepRunsTheDecodedInstruction : Obligations.StepRunsTheDecodedInstruction := by
  intro s hcfg hpc
  have hlaunch : launchRefusal s = none := (launchRefusal_none_iff s).2 ⟨hcfg, hpc⟩
  exact ⟨fun _ _ => step_of_decodeBytes_ok hlaunch, fun _ => step_of_decodeBytes_error hlaunch,
    step_of_decodeBytes_error hlaunch⟩

theorem decodeWordThen_of_ok {is : InstrSet} {w : Word} {i : Instr} (h : decode is w = .ok i) (rest : List Byte) :
    decodeWordThen is w rest = .ok (i, rest) := by
  simp only [decodeWordThen, h]

theorem decodeWordThen_of_error {is : InstrSet} {w : Word} {r : RefusedReason} (h : decode is w = .error r)
    (rest : List Byte) : decodeWordThen is w rest = .error (.rejected r) := by
  simp only [decodeWordThen, h]

/-- A word that decodes in T32 passes the length test (30_encoding.md R74). -/
theorem thumb32_of_decode_ok {w : Word} {i : Instr} (h : decode .t32 w = .ok i) : w.extractLsb' 27 5 = 0b11101#5 := by
  rcases decode_ok_cases h with ⟨hw, -⟩ | ⟨hr, -⟩
  · obtain ⟨htop, hhigh, -⟩ := (isWrite_iff .t32 w).1 hw
    exact thumb32_of_parts w (htop rfl) (.inr hhigh)
  · obtain ⟨htop, hhigh, -⟩ := (isRead_iff .t32 w).1 hr
    exact thumb32_of_parts w (htop rfl) (.inl hhigh)

/-- Decoding a word's bytes is decoding the word: the length test of T32 declines no word that decodes, and
declines the others for the word decoder's own reason. -/
theorem decodeBytes_bytesOfWord (is : InstrSet) (w : Word) (rest : List Byte) :
    decodeBytes is (bytesOfWord is w ++ rest) = decodeWordThen is w rest := by
  cases is with
  | a32 => exact decodeBytes_a32 w rest
  | t32 =>
    rw [decodeBytes_t32]
    split
    · rfl
    · rename_i hlen
      cases hd : decode .t32 w with
      | ok i => exact absurd (thumb32_of_decode_ok hd) hlen
      | error r => rw [decodeWordThen_of_error hd, decode_error hd]

theorem withFetchWord_toNat (s : State) (w : Word) : s.withFetchWord 32 w.toNat = placeWord s w := by
  rw [State.withFetchWord, Nat.mod_eq_of_lt w.isLt, BitVec.ofNat_toNat, BitVec.setWidth_eq]

/-- The fetch at a placed word decodes as the word. -/
theorem decodeBytes_fetchBytes_placeWord (s : State) (w : Word) :
    decodeBytes s.cfg.instrSet (fetchBytes (placeWord s w)) = decodeWordThen s.cfg.instrSet w [] := by
  rw [fetchBytes_placeWord, ← decodeBytes_bytesOfWord, List.append_nil]

/-- Settles O36: the bytes fetched at `pc` are the placed word's, and they decode as the word. -/
theorem placedWordIsExecuted : Obligations.PlacedWordIsExecuted := by
  intro s w hcfg hpc
  rw [withFetchWord_toNat]
  have hlaunch : launchRefusal (placeWord s w) = none := (launchRefusal_none_iff _).2 ⟨hcfg, hpc⟩
  have hbytes := decodeBytes_fetchBytes_placeWord s w
  cases hd : decode s.cfg.instrSet w with
  | ok i => exact step_of_decodeBytes_ok hlaunch (hbytes.trans (decodeWordThen_of_ok hd []))
  | error r => exact step_of_decodeBytes_error hlaunch (hbytes.trans (decodeWordThen_of_error hd []))

/-! ### Alignment (R59) -/

theorem pcAligned_eq_false_iff (is : InstrSet) (pc : Word) :
    pcAligned is pc = false ↔ (is = .a32 ∧ pc.toNat % 4 ≠ 0) ∨ (is = .t32 ∧ pc.toNat % 2 ≠ 0) := by
  rw [← Bool.not_eq_true]
  cases is with
  | a32 => simp [pcAligned_a32_iff]
  | t32 => simp [pcAligned_t32_iff]

theorem step_of_not_pcAligned {s : State} (hcfg : configAdmitted s.cfg = true)
    (hpc : pcAligned s.cfg.instrSet s.pc = false) : step s = .refused .pcMisaligned := by
  simp [step, launchRefusal, hcfg, hpc]

/-- A step that completes starts and ends with an aligned `pc`: the launch check passed, and `pc` advanced by 4. -/
theorem step_next_pcAligned {s s' : State} (h : step s = .next s') :
    pcAligned s.cfg.instrSet s.pc = true ∧ pcAligned s.cfg.instrSet s'.pc = true := by
  obtain ⟨hlaunch, -⟩ := step_next h
  obtain ⟨-, hpc⟩ := (launchRefusal_none_iff s).1 hlaunch
  obtain ⟨-, d, rfl⟩ := step_next_effect h
  exact ⟨hpc, pcAligned_add_four hpc⟩

/-- Settles O35: a misaligned `pc` fails the second launch check, before which only the configuration check can refuse,
and a step that completes keeps alignment. -/
theorem misalignedPcIsRefused : Obligations.MisalignedPcIsRefused := by
  intro s misaligned
  have hpc_of : misaligned → pcAligned s.cfg.instrSet s.pc = false := (pcAligned_eq_false_iff _ _).2
  refine ⟨fun hmis => ?_, fun hmis hcfg => step_of_not_pcAligned hcfg (hpc_of hmis), fun s' h => ?_⟩
  · cases hcfg : configAdmitted s.cfg with
    | false => exact ⟨_, step_of_not_configAdmitted hcfg⟩
    | true => exact ⟨_, step_of_not_pcAligned hcfg (hpc_of hmis)⟩
  · obtain ⟨hstart, hend⟩ := step_next_pcAligned h
    constructor
    · intro his
      rw [his, pcAligned_a32_iff] at hstart hend
      exact ⟨hstart, hend⟩
    · intro his
      rw [his, pcAligned_t32_iff] at hstart hend
      exact ⟨hstart, hend⟩

end Sys2Proof.Machine
end

section
/-! PROOFS. 20_memory.md R56, R62, 40_sysreg_read.md R89: what a step and a run of steps leave alone. -/

namespace Sys2Proof.Machine

open Sys2Proof.Safety

theorem step_next_mem {s s' : State} (h : step s = .next s') : s'.mem = s.mem := by
  obtain ⟨-, d, rfl⟩ := step_next_effect h
  rfl

/-- Settles O40: a step that completes has the effect of a read, which writes a register, its mark and `pc`. -/
theorem stepsLeaveMemoryAlone : Obligations.StepsLeaveMemoryAlone :=
  fun _ _ h a => congrArg (Memory.read · a) (step_next_mem h)

/-- Between two states of a run, register `d` is untouched or holds the constant and is marked as written
(40_sysreg_read.md R89). -/
def KeptOrConstant (d : Fin 15) (s s' : State) : Prop :=
  (s'.x[d] = s.x[d] ∧ s'.written[d] = s.written[d]) ∨ (s'.x[d] = s.cfg.idmmfr1Value ∧ s'.written[d] = true)

theorem keptOrConstant_readEffect (s : State) (d j : Fin 15) :
    KeptOrConstant j s (s.writeX d s.idMmfr1).advance := by
  by_cases hjd : d.val = j.val
  · exact .inr (by simp [hjd, State.idMmfr1])
  · exact .inl (by simp [hjd])

/-- Induction over the runs that end in `s'`, from their end: each step at the front has the effect of a read. -/
theorem core_run_next_induction {P : Nat → State → Prop} {s' : State} (zero : P 0 s')
    (succ : ∀ k d u, P k (u.writeX d u.idMmfr1).advance → P (k + 1) u) {k : Nat} {s : State}
    (h : Host.Core.run core k s = .next s') : P k s := by
  induction k generalizing s with
  | zero =>
    obtain rfl := (core_run_zero s s').1 h
    exact zero
  | succ k ih =>
    obtain ⟨u, hstep, hrun⟩ := (core_run_succ k s s').1 h
    obtain ⟨-, d, rfl⟩ := step_next_effect hstep
    exact succ k d s (ih hrun)

/-- What a run changes, apart from the registers and their marks: `pc`, by 4 for each step modulo 2^32 (10_state.md
R40). -/
theorem core_run_next_frame {k : Nat} {s s' : State} (h : Host.Core.run core k s = .next s') :
    s' = { s with x := s'.x, written := s'.written, pc := s.pc + BitVec.ofNat 32 (4 * k) } := by
  refine core_run_next_induction
    (P := fun k s => s' = { s with x := s'.x, written := s'.written, pc := s.pc + BitVec.ofNat 32 (4 * k) })
    (by simp) (fun k d u hframe => ?_) h
  have hpc : u.pc + 4#32 + BitVec.ofNat 32 (4 * k) = u.pc + BitVec.ofNat 32 (4 * (k + 1)) := by
    rw [BitVec.add_assoc, ← BitVec.ofNat_add, Nat.mul_succ, Nat.add_comm 4]
  rw [← hpc]
  exact hframe

theorem core_run_next_registers {k : Nat} {s s' : State} (h : Host.Core.run core k s = .next s') (j : Fin 15) :
    KeptOrConstant j s s' := by
  refine core_run_next_induction (P := fun _ s => KeptOrConstant j s s') (.inl ⟨rfl, rfl⟩) (fun _ d u hrest => ?_) h
  rcases hrest with ⟨hx, hwritten⟩ | hconstant
  · rw [KeptOrConstant, hx, hwritten]
    exact keptOrConstant_readEffect u d j
  · exact .inr hconstant

/-- Settles O42: the frame and the registers of a run, each by induction on its length. -/
theorem runsReadTheConstant : Obligations.RunsReadTheConstant := by
  intro k s s' h
  have hregs := core_run_next_registers h
  rw [core_run_next_frame h]
  exact ⟨rfl, hregs, rfl, rfl, rfl, rfl, rfl, rfl, rfl, rfl, rfl⟩

end Sys2Proof.Machine
end

section
/-! PROOFS. 30_encoding.md R69 to R71, R74, 20_memory.md R58: words and instructions determine each other. -/

namespace Sys2Proof.Machine

/-! ### The two forms of access (R71, R77) -/

/-- What the fixed bits of an access in either direction are (30_encoding.md R71, R77). -/
def accessMatch (is : InstrSet) : Direction → Word
  | .mrc => readMatch is
  | .mcr => writeMatch is

/-- The twelve bits above `Rt` in an access of either direction (30_encoding.md R69, R70). -/
def accessHigh : Direction → BitVec 12
  | .mrc => 0xE10#12
  | .mcr => 0xE00#12

/-- An access of direction `d` in terms of the parts of the word. -/
theorem isAccess_iff (is : InstrSet) (d : Direction) (w : Word) :
    w &&& accessMask is = accessMatch is d ↔
      (is = .t32 → w.extractLsb' 28 4 = 0xE#4) ∧ w.extractLsb' 16 12 = accessHigh d ∧
        w.extractLsb' 0 12 = 0xFB1#12 := by
  cases d with
  | mrc => exact isRead_iff is w
  | mcr => exact isWrite_iff is w

theorem readMatch_ne_writeMatch (is : InstrSet) : readMatch is ≠ writeMatch is := by
  cases is <;> decide

/-- A word decodes to an instruction exactly if its fixed bits are those of the instruction's direction and its
operands are the instruction's. -/
theorem decode_eq_ok_iff (is : InstrSet) (w : Word) (i : Instr) :
    decode is w = .ok i ↔
      w &&& accessMask is = accessMatch is i.record.dir ∧ i.record.cond = condOf is w ∧ i.record.t = rtOf w := by
  constructor
  · intro h
    rcases decode_ok_cases h with ⟨hform, rfl⟩ | ⟨hform, rfl⟩ <;> exact ⟨hform, rfl, rfl⟩
  · rintro ⟨hform, hc, ht⟩
    cases i with
    | mrcIdMmfr1 c t =>
      obtain ⟨rfl, rfl⟩ : c = condOf is w ∧ t = rtOf w := ⟨hc, ht⟩
      have hread : w &&& accessMask is = readMatch is := hform
      simp only [decode, hread, readMatch_ne_writeMatch, if_false, if_true]
    | mcrIdMmfr1Refused c t =>
      obtain ⟨rfl, rfl⟩ : c = condOf is w ∧ t = rtOf w := ⟨hc, ht⟩
      exact if_pos hform

/-! ### The encoder -/

theorem recordOfWord_operands {is : InstrSet} {w : Word} {r : AccessRecord} (h : recordOfWord is w = some r) :
    r.cond = condOf is w ∧ r.t = rtOf w := by
  unfold recordOfWord at h
  split at h
  · obtain rfl := Option.some.inj h
    exact ⟨rfl, rfl⟩
  · cases h

/-- Both layouts spell a record with the always condition by the same word (30_encoding.md R71). -/
theorem toWord_t32_of_condAL {r : AccessRecord} (h : r.cond = condAL) : r.toWord .t32 = r.toWord .a32 := by
  simp only [AccessRecord.toWord, AccessRecord.toA32, AccessRecord.toHw1, AccessRecord.toHw2, h]
  apply BitVec.eq_of_getLsbD_eq
  intro k hk
  interval_cases k <;> simp only [BitVec.getLsbD_append] <;> rfl

theorem decode_a32_encode (i : Instr) : decode .a32 (encode .a32 i) = .ok i := by
  rw [decode_eq_ok_iff]
  cases i with
  | mrcIdMmfr1 c t =>
    obtain ⟨hform, hrecord⟩ := Laws.EncodesInItsRow.mrcIdMmfr1 c t
    exact ⟨hform, recordOfWord_operands hrecord⟩
  | mcrIdMmfr1Refused c t =>
    obtain ⟨hform, hrecord⟩ := Laws.EncodesInItsRow.mcrIdMmfr1Refused c t
    exact ⟨hform, recordOfWord_operands hrecord⟩

/-- An A32 word decodes in T32 to the same instruction exactly if its condition is always (30_encoding.md R71). -/
theorem decode_t32_eq_ok_iff (w : Word) (i : Instr) :
    decode .t32 w = .ok i ↔ decode .a32 w = .ok i ∧ i.record.cond = condAL := by
  rw [decode_eq_ok_iff, decode_eq_ok_iff, isAccess_iff, isAccess_iff]
  constructor
  · rintro ⟨⟨htop, hhigh, hlow⟩, hc, ht⟩
    exact ⟨⟨⟨nofun, hhigh, hlow⟩, hc.trans (htop rfl).symm, ht⟩, hc⟩
  · rintro ⟨⟨⟨-, hhigh, hlow⟩, hc, ht⟩, hal⟩
    exact ⟨⟨fun _ => hc.symm.trans hal, hhigh, hlow⟩, hal, ht⟩

/-- The word of an instruction that the set can spell decodes to it. -/
theorem decode_encode {is : InstrSet} {i : Instr} (h : i.encodableIn is = true) :
    decode is (encode is i) = .ok i := by
  cases is with
  | a32 => exact decode_a32_encode i
  | t32 =>
    have hal : i.record.cond = condAL := beq_iff_eq.1 h
    rw [encode, toWord_t32_of_condAL hal, decode_t32_eq_ok_iff]
    exact ⟨decode_a32_encode i, hal⟩

/-- Settles O9: the bytes of a word decode as the word, and the word of an instruction decodes to it. -/
theorem decodeEncodeAgree : Obligations.DecodeEncodeAgree := by
  intro is i rest h
  rw [encodeBytes, decodeBytes_bytesOfWord]
  exact decodeWordThen_of_ok (decode_encode h) rest

/-! ### One meaning per word -/

theorem decode_a32_of_decode {is : InstrSet} {w : Word} {i : Instr} (h : decode is w = .ok i) :
    decode .a32 w = .ok i := by
  cases is with
  | a32 => exact h
  | t32 => exact ((decode_t32_eq_ok_iff w i).1 h).1

theorem encodableIn_of_decode_ok {is : InstrSet} {w : Word} {i : Instr} (h : decode is w = .ok i) :
    i.encodableIn is = true := by
  cases is with
  | a32 => rfl
  | t32 => exact beq_iff_eq.2 ((decode_t32_eq_ok_iff w i).1 h).2

/-- At most one word decodes to an instruction: its fixed parts and its operands are the whole word. -/
theorem decode_ok_inj {is : InstrSet} {v w : Word} {i : Instr} (hv : decode is v = .ok i) (hw : decode is w = .ok i) :
    v = w := by
  obtain ⟨hvform, hvc, hvt⟩ := (decode_eq_ok_iff .a32 v i).1 (decode_a32_of_decode hv)
  obtain ⟨hwform, hwc, hwt⟩ := (decode_eq_ok_iff .a32 w i).1 (decode_a32_of_decode hw)
  obtain ⟨-, hvhigh, hvlow⟩ := (isAccess_iff .a32 _ v).1 hvform
  obtain ⟨-, hwhigh, hwlow⟩ := (isAccess_iff .a32 _ w).1 hwform
  have hcond : v.extractLsb' 28 4 = w.extractLsb' 28 4 := hvc.symm.trans hwc
  have hrt : v.extractLsb' 12 4 = w.extractLsb' 12 4 := BitVec.eq_of_toFin_eq (hvt.symm.trans hwt)
  rw [word_eq_parts v, word_eq_parts w, hcond, hrt, hvhigh, hwhigh, hvlow, hwlow]

/-- Settles O10: the word of what a word decodes to decodes to the same, and no two words do. -/
theorem decodedWordEncodesBack : Obligations.DecodedWordEncodesBack := by
  intro is w i h
  have henc := encodableIn_of_decode_ok h
  exact ⟨decode_ok_inj (decode_encode henc) h, henc⟩

/-! ### Words of the read (R71) -/

/-- The always form of the read is one constant and `Rt` (30_encoding.md R71). -/
theorem encode_a32_mrcIdMmfr1_al (t : Fin 16) :
    encode .a32 (.mrcIdMmfr1 0b1110#4 t) = 0xEE100FB1#32 + (BitVec.ofNat 32 t.val <<< 12) := by
  revert t
  decide

/-- Settles O13: the masks and operands of the read in each set, and the word of its always form, which both sets
share. -/
theorem readWordsByMaskAndMatch : Obligations.ReadWordsByMaskAndMatch :=
  ⟨fun w c t => decode_eq_ok_iff .a32 w (.mrcIdMmfr1 c t), fun w c t => decode_eq_ok_iff .t32 w (.mrcIdMmfr1 c t),
    fun t => ⟨encode_a32_mrcIdMmfr1_al t,
      (toWord_t32_of_condAL (r := (Instr.mrcIdMmfr1 0b1110#4 t).record) rfl).trans (encode_a32_mrcIdMmfr1_al t)⟩⟩

/-! ### Lengths (R74) -/

@[simp] theorem length_encodeBytes (is : InstrSet) (i : Instr) : (encodeBytes is i).length = 4 := by
  cases is <;> rfl

/-- The T32 length test looks at the byte at the higher address only. -/
theorem thumb32_eq (low high : Byte) : thumb32 (halfword low high) = (high.extractLsb' 3 5 == 0b11101#5) := by
  rw [thumb32, halfword, BitVec.extractLsb'_append_eq_of_le (by decide)]

theorem decodeBytes_t32_of_not_thumb32 {low high : Byte} (h : thumb32 (halfword low high) = false)
    (rest : List Byte) : decodeBytes .t32 (low :: high :: rest) = .error (.rejected .notThisRegister) := by
  simp only [decodeBytes, h, Bool.false_eq_true, if_false]

/-- Settles O14: a word is four bytes in either byte order, and the length test comes before the second halfword. -/
theorem instructionLengths : Obligations.InstructionLengths := by
  refine ⟨length_encodeBytes, fun _ _ => thumb32_of_decode_ok, fun low high rest h => ?_⟩
  exact decodeBytes_t32_of_not_thumb32 ((thumb32_eq low high).trans (beq_false_of_ne h)) rest

/-- Settles O16: the six words and two byte lists by evaluation of the decoder. -/
theorem writtenOutWordsDecode : Obligations.WrittenOutWordsDecode :=
  ⟨rfl, rfl, rfl, rfl, rfl, rfl, rfl, rfl⟩

end Sys2Proof.Machine
end

section
/-! PROOFS. 30_encoding.md R68 to R70, R75 to R78, R80: the verdicts by mask, at the tuple layer and of execution. -/

namespace Sys2Proof.Machine

/-! ### The fields of the layouts (R69, R70) -/

/-- Words made of two parts are equal exactly if their parts are. -/
theorem append_eq_append_iff {n m : Nat} {a c : BitVec n} {b d : BitVec m} : a ++ b = c ++ d ↔ a = c ∧ b = d := by
  refine ⟨fun h => ⟨?_, ?_⟩, fun ⟨hhigh, hlow⟩ => hhigh ▸ hlow ▸ rfl⟩
  · have hhigh := congrArg (BitVec.extractLsb' m n) h
    simpa [BitVec.extractLsb'_append_eq_of_le] using hhigh
  · have hlow := congrArg (BitVec.extractLsb' 0 m) h
    simpa [BitVec.extractLsb'_append_eq_of_add_le] using hlow

/-- A run of bits is its upper and its lower part. -/
theorem extractLsb'_eq_append_iff {k n m : Nat} (w : BitVec k) (low : Nat) (a : BitVec n) (b : BitVec m) :
    w.extractLsb' low (n + m) = a ++ b ↔ w.extractLsb' (low + m) n = a ∧ w.extractLsb' low m = b := by
  rw [← BitVec.extractLsb'_append_extractLsb'_eq_extractLsb' rfl, append_eq_append_iff]

/-- The direction that the layouts read from a word: bit 20 in A32, bit 4 of `hw1` in T32. -/
def dirOfWord (w : Word) : Direction := if w.extractLsb' 20 1 = 1#1 then .mrc else .mcr

theorem dirOfWord_eq_iff (w : Word) (d : Direction) : dirOfWord w = d ↔ w.extractLsb' 20 1 = d.bit := by
  rcases BitVec.eq_zero_or_eq_one (w.extractLsb' 20 1) with h | h <;> cases d <;> simp [dirOfWord, h, Direction.bit]

/-- The twelve bits above `Rt`, field by field. -/
theorem accessHigh_iff (w : Word) (d : Direction) :
    w.extractLsb' 16 12 = accessHigh d ↔
      w.extractLsb' 24 4 = 0b1110#4 ∧ w.extractLsb' 21 3 = 0b000#3 ∧ dirOfWord w = d ∧
        w.extractLsb' 16 4 = 0b0000#4 := by
  have hmatch : accessHigh d = 0b1110#4 ++ 0b000#3 ++ d.bit ++ 0b0000#4 := by cases d <;> rfl
  rw [hmatch, dirOfWord_eq_iff]
  change w.extractLsb' 16 (4 + 3 + 1 + 4) = _ ↔ _
  rw [extractLsb'_eq_append_iff, extractLsb'_eq_append_iff, extractLsb'_eq_append_iff, and_assoc, and_assoc]

/-- The twelve bits below `Rt`, field by field. -/
theorem accessLow_iff (w : Word) :
    w.extractLsb' 0 12 = 0xFB1#12 ↔
      w.extractLsb' 8 4 = 0b1111#4 ∧ w.extractLsb' 5 3 = 0b101#3 ∧ w.extractLsb' 4 1 = 1#1 ∧
        w.extractLsb' 0 4 = 0b0001#4 := by
  change w.extractLsb' 0 (4 + 3 + 1 + 4) = 0b1111#4 ++ 0b101#3 ++ 1#1 ++ 0b0001#4 ↔ _
  rw [extractLsb'_eq_append_iff, extractLsb'_eq_append_iff, extractLsb'_eq_append_iff, and_assoc, and_assoc]

theorem hasAccessShape_iff (is : InstrSet) (w : Word) :
    hasAccessShape is w = true ↔
      (is = .t32 → w.extractLsb' 28 4 = 0xE#4) ∧ w.extractLsb' 24 4 = 0b1110#4 ∧ w.extractLsb' 4 1 = 1#1 := by
  cases is with
  | a32 => simp [hasAccessShape]
  | t32 =>
    have htop : w.extractLsb' 24 8 = 0b11101110#8 ↔ w.extractLsb' 28 4 = 0xE#4 ∧ w.extractLsb' 24 4 = 0b1110#4 :=
      extractLsb'_eq_append_iff w 24 0xE#4 0b1110#4
    simp only [hasAccessShape, htop, Bool.and_eq_true, beq_iff_eq, and_assoc, forall_const]

/-- The masks and matches against the layouts: the layout's fixed bits, the register's location and the direction. -/
theorem isAccess_iff_fields (is : InstrSet) (d : Direction) (w : Word) :
    w &&& accessMask is = accessMatch is d ↔
      hasAccessShape is w = true ∧ locOfWord w = idMmfr1Tuple ∧ dirOfWord w = d := by
  rw [isAccess_iff, accessHigh_iff, accessLow_iff, hasAccessShape_iff, locOfWord, idMmfr1Tuple, SysRegTuple.mk.injEq]
  tauto

/-! ### The verdicts of a record and of a word (R80) -/

theorem recordOfWord_eq (is : InstrSet) (w : Word) :
    recordOfWord is w =
      if hasAccessShape is w then
        some { dir := dirOfWord w, cond := condOf is w, loc := locOfWord w, t := rtOf w }
      else none := rfl

theorem rtOf_eq_15_iff (w : Word) : (rtOf w).val = 15 ↔ w.extractLsb' 12 4 = 0b1111#4 := by
  rw [← BitVec.toNat_inj]
  rfl

theorem verdict_of_not_access {is : InstrSet} {w : Word} (h : ∀ d, w &&& accessMask is ≠ accessMatch is d) :
    verdict is w = .error .notThisRegister := by
  have hwrite : w &&& accessMask is ≠ writeMatch is := h .mcr
  have hread : w &&& accessMask is ≠ readMatch is := h .mrc
  simp only [verdict, hwrite, hread, if_false, ne_eq, not_false_eq_true, if_true]

/-- The verdict of an access is the tuple layer's of a record with the register's location and the word's operands. -/
theorem verdict_of_access {is : InstrSet} {w : Word} {d : Direction} (h : w &&& accessMask is = accessMatch is d) :
    verdict is w = recordVerdict { dir := d, cond := condOf is w, loc := idMmfr1Tuple, t := rtOf w } := by
  cases d with
  | mcr =>
    have hwrite : w &&& accessMask is = writeMatch is := h
    simp [verdict, recordVerdict, hwrite]
  | mrc =>
    have hread : w &&& accessMask is = readMatch is := h
    simp [verdict, recordVerdict, hread, readMatch_ne_writeMatch, condAL, rtOf_eq_15_iff]

/-- Settles O11: a word is an access of direction `d` exactly if its record has the register's location and direction
`d`, and where it is none, its shape or its location differs. -/
theorem maskVerdictsAreTupleVerdicts : Obligations.MaskVerdictsAreTupleVerdicts := by
  intro is w
  by_cases haccess : w &&& accessMask is = accessMatch is (dirOfWord w)
  · obtain ⟨hshape, hloc, -⟩ := (isAccess_iff_fields is _ w).1 haccess
    rw [verdict_of_access haccess, recordOfWord_eq, if_pos hshape, hloc]
  · have hnone : ∀ d, w &&& accessMask is ≠ accessMatch is d := fun d hd =>
      haccess (((isAccess_iff_fields is d w).1 hd).2.2 ▸ hd)
    rw [verdict_of_not_access hnone, recordOfWord_eq]
    by_cases hshape : hasAccessShape is w = true
    · have hloc : locOfWord w ≠ idMmfr1Tuple := fun hloc =>
        haccess ((isAccess_iff_fields is _ w).2 ⟨hshape, hloc, rfl⟩)
      simp only [hshape, if_true, recordVerdict, hloc, ne_eq, not_false_eq_true]
    · simp only [hshape, Bool.false_eq_true, if_false]

/-! ### The refused forms (R75 to R77) -/

theorem exec_mcrIdMmfr1Refused (c : BitVec 4) (t : Fin 16) (s : State) :
    exec (.mcrIdMmfr1Refused c t) s = .refused (.form .writeForm) := rfl

theorem exec_mrcIdMmfr1_of_cond_ne {c : BitVec 4} (h : c ≠ 0b1110#4) (t : Fin 16) (s : State) :
    exec (.mrcIdMmfr1 c t) s = .refused (.form .condition) := by
  have hc : conditionAdmitted c = false := Bool.eq_false_iff.2 (mt (conditionAdmitted_iff c).1 h)
  simp only [exec, execMrcIdMmfr1, hc, Bool.not_false, if_true]

theorem exec_mrcIdMmfr1_rt15 (s : State) :
    exec (.mrcIdMmfr1 0b1110#4 15) s = .refused (.form .rtIs15) := rfl

/-- Settles O27: the condition is tested first, then the register number. -/
theorem refusedFormsOfTheRead : Obligations.RefusedFormsOfTheRead :=
  ⟨fun _ t s h => exec_mrcIdMmfr1_of_cond_ne h t s, exec_mrcIdMmfr1_rt15⟩

theorem decode_of_isWrite {is : InstrSet} {w : Word} (h : w &&& accessMask is = writeMatch is) :
    decode is w = .ok (.mcrIdMmfr1Refused (condOf is w) (rtOf w)) :=
  (decode_eq_ok_iff is w _).2 ⟨h, rfl, rfl⟩

theorem decode_of_isRead {is : InstrSet} {w : Word} (h : w &&& accessMask is = readMatch is) :
    decode is w = .ok (.mrcIdMmfr1 (condOf is w) (rtOf w)) :=
  (decode_eq_ok_iff is w _).2 ⟨h, rfl, rfl⟩

/-- Settles O28: the mask and match of the write form give the write form, whose meaning is its refusal. -/
theorem writeFormIsRefused : Obligations.WriteFormIsRefused :=
  ⟨fun _ h => ⟨_, _, decode_of_isWrite (is := .a32) h⟩, fun _ h => ⟨_, _, decode_of_isWrite (is := .t32) h⟩,
    exec_mcrIdMmfr1Refused⟩

/-! ### What executing a word answers (R80) -/

/-- What decoding and executing a word answers: `outcome` of `Obligations.WordsMeetTheVerdictTable`. -/
def execWord (is : InstrSet) (w : Word) (s : State) : Result :=
  match decode is w with
  | .ok i => exec i s
  | .error r => .refused (.form r)

section execWord
variable {is : InstrSet} {w : Word} (s : State)

theorem execWord_of_isWrite (h : w &&& accessMask is = writeMatch is) :
    execWord is w s = .refused (.form .writeForm) := by
  simp only [execWord, decode_of_isWrite h, exec_mcrIdMmfr1Refused]

theorem execWord_of_not_access (hwrite : w &&& accessMask is ≠ writeMatch is)
    (hread : w &&& accessMask is ≠ readMatch is) : execWord is w s = .refused (.form .notThisRegister) := by
  simp only [execWord, decode, hwrite, hread, if_false]

theorem execWord_of_cond_ne (h : w &&& accessMask is = readMatch is) (hc : condOf is w ≠ 0b1110#4) :
    execWord is w s = .refused (.form .condition) := by
  simp only [execWord, decode_of_isRead h, exec_mrcIdMmfr1_of_cond_ne hc]

theorem execWord_of_rt15 (h : w &&& accessMask is = readMatch is) (hc : condOf is w = 0b1110#4)
    (ht : w.extractLsb' 12 4 = 0b1111#4) : execWord is w s = .refused (.form .rtIs15) := by
  have hrt : rtOf w = 15 := Fin.ext ((rtOf_eq_15_iff w).2 ht)
  simp only [execWord, decode_of_isRead h, hc, hrt, exec_mrcIdMmfr1_rt15]

theorem decode_of_admitted (h : w &&& accessMask is = readMatch is) (hc : condOf is w = 0b1110#4) {t : Fin 15}
    (ht : w.extractLsb' 12 4 = BitVec.ofNat 4 t.val) : decode is w = .ok (.mrcIdMmfr1 0b1110#4 t.castSucc) := by
  have hrt : rtOf w = t.castSucc := by
    rw [rtOf, ht]
    ext
    simp
  rw [decode_of_isRead h, hc, hrt]

end execWord

/-- Settles O12: each row of the table in either set; in T32 the condition is always, which leaves no row for it. -/
theorem wordsMeetTheVerdictTable : Obligations.WordsMeetTheVerdictTable :=
  fun _ s =>
    ⟨⟨execWord_of_isWrite (is := .a32) s, execWord_of_not_access (is := .a32) s, execWord_of_cond_ne (is := .a32) s,
        execWord_of_rt15 (is := .a32) s, fun _ h hc ht => decode_of_admitted (is := .a32) h hc ht⟩,
      ⟨execWord_of_isWrite (is := .t32) s, execWord_of_not_access (is := .t32) s,
        fun h => execWord_of_rt15 (is := .t32) s h rfl, fun _ h ht => decode_of_admitted (is := .t32) h rfl ht⟩⟩

end Sys2Proof.Machine
end

section
/-! PROOFS. 40_sysreg_read.md R81 to R89: what the access answers at each Exception level, and what a read changes. -/

namespace Sys2Proof.Machine

open Sys2Proof.Safety

/-! ### The outcome of the access (R81 to R86) -/

section accessOutcome
variable {s : State}

theorem accessOutcome_of_absent (h : s.cfg.el1CanUseAArch32 = false) : accessOutcome s = .undefined := by
  simp only [accessOutcome, h, Bool.not_false, if_true]

theorem accessOutcome_of_el0 (h : s.el = .el0) : accessOutcome s = .undefined := by
  simp only [accessOutcome, h, ite_self]

theorem accessOutcome_of_trapEL2AArch64 (hp : s.cfg.el1CanUseAArch32 = true) (hel : s.el = .el1)
    (he : s.el2Enabled = true) (ha : s.el2UsingAArch32 = false) (h : s.hstrEL2T0 = true ∨ s.hcrEL2TID3 = true) :
    accessOutcome s = .trapEL2AArch64 0x03#6 := by
  rcases h with h | h <;> simp [accessOutcome, hp, hel, he, ha, h]

theorem accessOutcome_of_trapHyp (hp : s.cfg.el1CanUseAArch32 = true) (hel : s.el = .el1)
    (he : s.el2Enabled = true) (ha : s.el2UsingAArch32 = true) (h : s.hstrT0 = true ∨ s.hcrTID3 = true) :
    accessOutcome s = .trapHyp 0x03#6 := by
  rcases h with h | h <;> simp [accessOutcome, hp, hel, he, ha, h]

/-- At EL1 the access reads where neither pair's trap condition holds (R84, R85). -/
theorem accessOutcome_of_no_trap (hp : s.cfg.el1CanUseAArch32 = true) (hel : s.el = .el1)
    (h64 : ¬(s.el2Enabled = true ∧ s.el2UsingAArch32 = false ∧ (s.hstrEL2T0 = true ∨ s.hcrEL2TID3 = true)))
    (h32 : ¬(s.el2Enabled = true ∧ s.el2UsingAArch32 = true ∧ (s.hstrT0 = true ∨ s.hcrTID3 = true))) :
    accessOutcome s = .read := by
  refine (accessOutcome_read_iff s).2 ⟨hp, .inr (.inr ⟨hel, fun he ha => ?_, fun he ha => ?_⟩)⟩
  · simpa [he, ha] using h64
  · simpa [he, ha] using h32

/-- With EL2 not enabled every trap condition is false, whatever the control bits are (R85). -/
theorem accessOutcome_controls_of_el2_disabled (a b c d : Bool) (h : s.el2Enabled = false) :
    accessOutcome { s with hstrEL2T0 := a, hstrT0 := b, hcrEL2TID3 := c, hcrTID3 := d } = accessOutcome s := by
  simp only [accessOutcome, h, Bool.false_and]

/-- With EL2 in AArch64 the trap conditions of `HSTR` and `HCR` are false (R85). -/
theorem accessOutcome_aarch32_controls_of_aarch64 (b d : Bool) (h : s.el2UsingAArch32 = false) :
    accessOutcome { s with hstrT0 := b, hcrTID3 := d } = accessOutcome s := by
  simp only [accessOutcome, h, Bool.and_false, Bool.false_and]

/-- With EL2 in AArch32 the trap conditions of `HSTR_EL2` and `HCR_EL2` are false (R85). -/
theorem accessOutcome_aarch64_controls_of_aarch32 (a c : Bool) (h : s.el2UsingAArch32 = true) :
    accessOutcome { s with hstrEL2T0 := a, hcrEL2TID3 := c } = accessOutcome s := by
  simp only [accessOutcome, h, Bool.not_true, Bool.and_false, Bool.false_and]

/-- The outcome is a function of eight inputs (R89). -/
theorem accessOutcome_congr {u : State} (hp : s.cfg.el1CanUseAArch32 = u.cfg.el1CanUseAArch32) (hel : s.el = u.el)
    (he : s.el2Enabled = u.el2Enabled) (ha : s.el2UsingAArch32 = u.el2UsingAArch32)
    (h1 : s.hstrEL2T0 = u.hstrEL2T0) (h2 : s.hstrT0 = u.hstrT0) (h3 : s.hcrEL2TID3 = u.hcrEL2TID3)
    (h4 : s.hcrTID3 = u.hcrTID3) : accessOutcome s = accessOutcome u := by
  simp only [accessOutcome, hp, hel, he, ha, h1, h2, h3, h4]

end accessOutcome

/-- A read writes none of the eight inputs. -/
@[simp] theorem accessOutcome_readEffect (s : State) (d : Fin 15) (v : Word) :
    accessOutcome (s.writeX d v).advance = accessOutcome s := rfl

/-! ### From the outcome to the instruction's answer (R87, R88) -/

theorem exec_of_accessOutcome_read {s : State} (d : Fin 15) (h : accessOutcome s = .read) :
    exec (.mrcIdMmfr1 0b1110#4 d.castSucc) s = .next (s.writeX d s.idMmfr1).advance := by
  rw [exec, execMrcIdMmfr1_admitted, h]
  rfl

theorem exec_of_accessOutcome_fault {s : State} {o : AccessOutcome} {f : Fault} (d : Fin 15)
    (h : accessOutcome s = o) (hf : o.fault? d.castSucc = some f) :
    exec (.mrcIdMmfr1 0b1110#4 d.castSucc) s = .fault f := by
  rw [exec, execMrcIdMmfr1_admitted, h, hf]

/-- Settles O17: the conditions are those under which the access reads. -/
theorem readWritesDestinationAndPc : Obligations.ReadWritesDestinationAndPc :=
  fun s t hp hel => exec_of_accessOutcome_read t ((accessOutcome_read_iff s).2 ⟨hp, hel⟩)

/-- Settles O18: at EL2 and EL3 the access reads, and the destination holds what was written. -/
theorem el2AndEL3AlwaysRead : Obligations.EL2AndEL3AlwaysRead := by
  intro s t hp hel
  have hread : accessOutcome s = .read := (accessOutcome_read_iff s).2 ⟨hp, hel.imp_right .inl⟩
  exact ⟨_, exec_of_accessOutcome_read t hread, s.readX_writeX_same t s.idMmfr1, rfl⟩

/-- Settles O20: presence is tested before everything else. -/
theorem absentRegisterIsUndefined : Obligations.AbsentRegisterIsUndefined :=
  fun _ t h => exec_of_accessOutcome_fault t (accessOutcome_of_absent h) rfl

/-- Settles O21: the EL0 arm is `UNDEFINED`, as the answer for an absent register is. -/
theorem el0ReadIsUndefined : Obligations.EL0ReadIsUndefined :=
  fun _ t h => exec_of_accessOutcome_fault t (accessOutcome_of_el0 h) rfl

/-- Settles O22: the conditions of different traps exclude each other by `ELUsingAArch32(EL2)`, so each decides alone;
with none of the four the access reads. -/
theorem el1ConditionsInOrder : Obligations.EL1ConditionsInOrder := by
  intro s t hp hel c1 c2 c3 c4 r
  have htrapHyp (he : s.el2Enabled = true) (ha : s.el2UsingAArch32 = true) (h : s.hstrT0 = true ∨ s.hcrTID3 = true) :
      r = .fault (.trapHyp 0x03#6 t.castSucc) :=
    exec_of_accessOutcome_fault t (accessOutcome_of_trapHyp hp hel he ha h) rfl
  have htrapEL2 (he : s.el2Enabled = true) (ha : s.el2UsingAArch32 = false)
      (h : s.hstrEL2T0 = true ∨ s.hcrEL2TID3 = true) : r = .fault (.trapEL2AArch64 0x03#6 t.castSucc) :=
    exec_of_accessOutcome_fault t (accessOutcome_of_trapEL2AArch64 hp hel he ha h) rfl
  refine ⟨fun ⟨he, ha, h⟩ => htrapEL2 he ha (.inl h), fun _ ⟨he, ha, h⟩ => htrapHyp he ha (.inl h),
    fun _ _ ⟨he, ha, h⟩ => htrapEL2 he ha (.inr h), fun _ _ _ ⟨he, ha, h⟩ => htrapHyp he ha (.inr h),
    fun n1 n2 n3 n4 => exec_of_accessOutcome_read t (accessOutcome_of_no_trap hp hel ?_ ?_)⟩
  · exact fun ⟨he, ha, h⟩ => h.elim (fun h => n1 ⟨he, ha, h⟩) (fun h => n3 ⟨he, ha, h⟩)
  · exact fun ⟨he, ha, h⟩ => h.elim (fun h => n2 ⟨he, ha, h⟩) (fun h => n4 ⟨he, ha, h⟩)

/-- Settles O23: each pair's trap, else the read; a pair is looked at only where EL2 is enabled in its state. -/
theorem el1ShortForm : Obligations.EL1ShortForm := by
  refine ⟨fun s t hp hel => ?_, fun _ a b c d => accessOutcome_controls_of_el2_disabled a b c d,
    fun _ b d => accessOutcome_aarch32_controls_of_aarch64 b d,
    fun _ a c => accessOutcome_aarch64_controls_of_aarch32 a c⟩
  split_ifs with h64 h32
  · obtain ⟨he, ha, h⟩ := h64
    exact exec_of_accessOutcome_fault t (accessOutcome_of_trapEL2AArch64 hp hel he ha h) rfl
  · obtain ⟨he, ha, h⟩ := h32
    exact exec_of_accessOutcome_fault t (accessOutcome_of_trapHyp hp hel he ha h) rfl
  · exact exec_of_accessOutcome_read t (accessOutcome_of_no_trap hp hel h64 h32)

/-! ### What a read changes and what it depends on (R88, R89) -/

theorem State.written_writeX_ne (s : State) {i j : Fin 15} (v : Word) (h : j ≠ i) :
    (s.writeX i v).written[j] = s.written[j] :=
  Vector.getElem_set_ne i.isLt j.isLt fun e => h (Fin.ext e.symm)

theorem State.written_writeX_same (s : State) (i : Fin 15) (v : Word) : (s.writeX i v).written[i] = true :=
  (s.written_writeX_iff i i v).2 (.inl rfl)

/-- Writing what a register already holds changes nothing. -/
theorem State.writeX_readX {s : State} {i : Fin 15} {v : Word} (hx : s.readX i = v) (hw : s.written[i] = true) :
    s.writeX i v = s := by
  have hregs : s.x.set i v = s.x := hx ▸ Vector.set_getElem_self i.isLt
  have hmarks : s.written.set i true = s.written := hw ▸ Vector.set_getElem_self i.isLt
  rw [State.writeX, hregs, hmarks]

/-- Settles O29: a next state is the effect of a read, which writes the destination, its mark and `pc`. -/
theorem readFrame : Obligations.ReadFrame := by
  intro c t s s' h
  obtain ⟨-, -, d, rfl, rfl⟩ := execMrcIdMmfr1_next h
  refine ⟨fun j hj => ?_, fun j hj => ?_, rfl, rfl, rfl, rfl, rfl, rfl, rfl, rfl, fun _ => rfl⟩
  · have hjd : j ≠ d := fun e => hj (congrArg Fin.castSucc e)
    exact ⟨s.readX_writeX_ne s.idMmfr1 hjd, s.written_writeX_ne s.idMmfr1 hjd⟩
  · obtain rfl := Fin.castSucc_injective 15 hj
    exact ⟨s.readX_writeX_same j s.idMmfr1, s.written_writeX_same j s.idMmfr1⟩

/-- Settles O30: the two states give one outcome, and the answer is a function of it and the destination. -/
theorem outcomeDependsOnEightInputsOnly : Obligations.OutcomeDependsOnEightInputsOnly := by
  intro s u t v hp hel he ha h1 h2 h3 h4
  have houtcome := accessOutcome_congr hp hel he ha h1 h2 h3 h4
  cases hu : accessOutcome u with
  | read =>
    rw [exec_of_accessOutcome_read t (houtcome.trans hu)]
    exact ⟨_, exec_of_accessOutcome_read v hu⟩
  | undefined =>
    rw [exec_of_accessOutcome_fault t (houtcome.trans hu) rfl]
    exact exec_of_accessOutcome_fault v hu rfl
  | trapEL2AArch64 ec =>
    rw [exec_of_accessOutcome_fault t (houtcome.trans hu) rfl]
    exact exec_of_accessOutcome_fault v hu rfl
  | trapHyp ec =>
    rw [exec_of_accessOutcome_fault t (houtcome.trans hu) rfl]
    exact exec_of_accessOutcome_fault v hu rfl

/-- Settles O31: the first read leaves the outcome as it was and the constant in the register, so the second writes
back what stands there. -/
theorem secondReadOnlyAdvancesPc : Obligations.SecondReadOnlyAdvancesPc := by
  intro s s' t h
  obtain ⟨hread, d, hi, rfl⟩ := exec_next h
  obtain rfl : t = d := Fin.castSucc_injective 15 (Instr.mrcIdMmfr1.inj hi).2
  have hkeep : (s.writeX t s.idMmfr1).advance.writeX t s.idMmfr1 = (s.writeX t s.idMmfr1).advance :=
    State.writeX_readX (s.readX_writeX_same t s.idMmfr1) (s.written_writeX_same t s.idMmfr1)
  have hsecond := exec_of_accessOutcome_read t ((accessOutcome_readEffect s t s.idMmfr1).trans hread)
  rw [State.idMmfr1_advance, State.idMmfr1_writeX, hkeep] at hsecond
  exact hsecond

/-! ### Faults of the access along a run (R87, R89) -/

/-- Where the access reads, no instruction ends in a fault. -/
theorem exec_ne_fault_of_read {s : State} (hread : accessOutcome s = .read) (i : Instr) (f : Fault) :
    exec i s ≠ .fault f := by
  intro h
  cases i with
  | mrcIdMmfr1 c t =>
    obtain ⟨-, -, hfault⟩ := execMrcIdMmfr1_fault h
    rw [hread] at hfault
    cases hfault
  | mcrIdMmfr1Refused c t => cases h

/-- Where a run of one instruction more can fault: at its first instruction, or in the run after it. -/
theorem runEnd_succ_eq_faulted {k : Nat} {s s' : State} {f : Fault} (h : runEnd (k + 1) s = .faulted s' f) :
    (s' = s ∧ step s = .fault f) ∨ ∃ u, step s = .next u ∧ runEnd k u = .faulted s' f := by
  cases hstep : step s with
  | next u => exact .inr ⟨u, rfl, runEnd_succ_next k hstep ▸ h⟩
  | fault g =>
    rw [runEnd_succ_fault k hstep] at h
    obtain ⟨rfl, rfl⟩ := RunEnd.faulted.inj h
    exact .inl ⟨rfl, rfl⟩
  | refused r =>
    rw [runEnd_succ_refused k hstep] at h
    cases h

/-- Where the access reads, it reads at every step of a run, so only the end of the text is a fault. -/
theorem runEnd_fault_of_read {k : Nat} {s s' : State} {f : Fault} (hread : accessOutcome s = .read)
    (h : runEnd k s = .faulted s' f) : f = .noInstruction := by
  induction k generalizing s with
  | zero => cases h
  | succ k ih =>
    obtain ⟨-, hfault⟩ | ⟨u, hstep, hrest⟩ := runEnd_succ_eq_faulted h
    · obtain hend | ⟨i, -, -, hexec⟩ := step_fault hfault
      · exact hend
      · exact absurd hexec (exec_ne_fault_of_read hread i f)
    · obtain ⟨-, d, rfl⟩ := step_next_effect hstep
      exact ih ((accessOutcome_readEffect s d s.idMmfr1).trans hread) hrest

/-- Settles O43: a run that gets past its first instruction began where the access reads, and then no fault of the
access ends it. -/
theorem accessFaultsStopAtTheFirstInstruction : Obligations.AccessFaultsStopAtTheFirstInstruction := by
  intro k s s' f h hf
  cases k with
  | zero => cases h
  | succ k =>
    obtain ⟨hstart, -⟩ | ⟨u, hstep, -⟩ := runEnd_succ_eq_faulted h
    · exact hstart
    · rw [runEnd_fault_of_read (step_next_effect hstep).1 h] at hf
      cases hf

end Sys2Proof.Machine
end

section
/-! PROOFS. 60_exceptions.md R94 to R96, R103, R104: exactly when each outcome of the access arises, and what an
Exception level can complete. -/

namespace Sys2Proof.Machine

/-! ### Exactly when each outcome arises (R94 to R96, R103) -/

/-- When the access has the given outcome, by the register's presence, the Exception level and the trap controls: R94
for `Undefined`, R95 and R96 for the traps, and none of them for a read. -/
def OutcomeCondition (s : State) : AccessOutcome → Prop
  | .undefined => s.cfg.el1CanUseAArch32 = false ∨ s.el = .el0
  | .trapEL2AArch64 ec => ec = 0x03#6 ∧ s.cfg.el1CanUseAArch32 = true ∧ s.el = .el1 ∧
      s.el2Enabled = true ∧ s.el2UsingAArch32 = false ∧ (s.hstrEL2T0 = true ∨ s.hcrEL2TID3 = true)
  | .trapHyp ec => ec = 0x03#6 ∧ s.cfg.el1CanUseAArch32 = true ∧ s.el = .el1 ∧
      s.el2Enabled = true ∧ s.el2UsingAArch32 = true ∧ (s.hstrT0 = true ∨ s.hcrTID3 = true)
  | .read => s.cfg.el1CanUseAArch32 = true ∧ s.el ≠ .el0 ∧
      (s.el = .el1 → s.el2Enabled = true →
        (s.el2UsingAArch32 = false → s.hstrEL2T0 = false ∧ s.hcrEL2TID3 = false) ∧
        (s.el2UsingAArch32 = true → s.hstrT0 = false ∧ s.hcrTID3 = false))

/-- A condition decides the outcome. -/
theorem accessOutcome_of_condition {s : State} {o : AccessOutcome} (h : OutcomeCondition s o) :
    accessOutcome s = o := by
  cases o with
  | read =>
    obtain ⟨hp, hel0, hcontrols⟩ := h
    refine (accessOutcome_read_iff s).2 ⟨hp, ?_⟩
    cases hel : s.el with
    | el0 => exact absurd hel hel0
    | el1 => exact .inr (.inr ⟨rfl, fun he => (hcontrols hel he).1, fun he => (hcontrols hel he).2⟩)
    | el2 => exact .inl rfl
    | el3 => exact .inr (.inl rfl)
  | undefined => exact h.elim accessOutcome_of_absent accessOutcome_of_el0
  | trapEL2AArch64 ec =>
    obtain ⟨rfl, hp, hel, he, ha, hbit⟩ := h
    exact accessOutcome_of_trapEL2AArch64 hp hel he ha hbit
  | trapHyp ec =>
    obtain ⟨rfl, hp, hel, he, ha, hbit⟩ := h
    exact accessOutcome_of_trapHyp hp hel he ha hbit

/-- The conditions leave no state out: where neither `Undefined` nor a trap is raised, the condition of a read holds. -/
theorem exists_outcomeCondition (s : State) : ∃ o, OutcomeCondition s o := by
  by_cases hundef : OutcomeCondition s .undefined
  · exact ⟨_, hundef⟩
  by_cases h64 : OutcomeCondition s (.trapEL2AArch64 0x03#6)
  · exact ⟨_, h64⟩
  by_cases h32 : OutcomeCondition s (.trapHyp 0x03#6)
  · exact ⟨_, h32⟩
  obtain ⟨hp, hel0⟩ := not_or.1 hundef
  have hpresent : s.cfg.el1CanUseAArch32 = true := Bool.eq_true_of_not_eq_false hp
  refine ⟨.read, hpresent, hel0, fun hel he => ⟨fun ha => ?_, fun ha => ?_⟩⟩
  · simpa [OutcomeCondition, hpresent, hel, he, ha] using h64
  · simpa [OutcomeCondition, hpresent, hel, he, ha] using h32

/-- The conditions are exact: one holds in every state, and each decides the outcome. -/
theorem accessOutcome_eq_iff (s : State) (o : AccessOutcome) : accessOutcome s = o ↔ OutcomeCondition s o := by
  refine ⟨fun h => ?_, accessOutcome_of_condition⟩
  obtain ⟨o', ho'⟩ := exists_outcomeCondition s
  rwa [← h, accessOutcome_of_condition ho']

/-! ### From an outcome to the fault that carries it (R93, R98) -/

theorem AccessOutcome.fault?_eq_undefined_iff (o : AccessOutcome) (t : Fin 16) :
    o.fault? t = some .undefined ↔ o = .undefined := by
  cases o <;> simp [AccessOutcome.fault?]

theorem AccessOutcome.fault?_eq_trapEL2AArch64_iff (o : AccessOutcome) (t : Fin 16) (ec : BitVec 6) (u : Fin 16) :
    o.fault? t = some (.trapEL2AArch64 ec u) ↔ o = .trapEL2AArch64 ec ∧ t = u := by
  cases o <;> simp [AccessOutcome.fault?]

theorem AccessOutcome.fault?_eq_trapHyp_iff (o : AccessOutcome) (t : Fin 16) (ec : BitVec 6) (u : Fin 16) :
    o.fault? t = some (.trapHyp ec u) ↔ o = .trapHyp ec ∧ t = u := by
  cases o <;> simp [AccessOutcome.fault?]

/-- Only an admitted read faults, with the fault of its access. -/
theorem exec_eq_fault_iff (i : Instr) (s : State) (f : Fault) :
    exec i s = .fault f ↔
      ∃ d : Fin 15, i = .mrcIdMmfr1 0b1110#4 d.castSucc ∧ (accessOutcome s).fault? d.castSucc = some f := by
  constructor
  · intro h
    cases i with
    | mrcIdMmfr1 c t =>
      obtain ⟨rfl, ⟨d, rfl⟩, hf⟩ := execMrcIdMmfr1_fault h
      exact ⟨d, rfl, hf⟩
    | mcrIdMmfr1Refused c t => cases h
  · rintro ⟨d, rfl, hf⟩
    exact exec_of_accessOutcome_fault d rfl hf

/-- A fault that carries the destination's number comes from the admitted read into that destination. -/
theorem exec_eq_fault_carrying_iff {o : AccessOutcome} {f : Fault} {u : Fin 16}
    (hf : ∀ (o' : AccessOutcome) (t : Fin 16), o'.fault? t = some f ↔ o' = o ∧ t = u) (i : Instr) (s : State) :
    exec i s = .fault f ↔ (u.val < 15 ∧ i = .mrcIdMmfr1 0b1110#4 u) ∧ accessOutcome s = o := by
  simp only [exec_eq_fault_iff, hf]
  constructor
  · rintro ⟨d, rfl, ho, rfl⟩
    exact ⟨⟨d.isLt, rfl⟩, ho⟩
  · rintro ⟨⟨hu, rfl⟩, ho⟩
    exact ⟨u.castLT hu, rfl, ho, rfl⟩

/-- Settles O24: the fault `undefined` is the access's outcome `Undefined`, whatever the destination. -/
theorem undefinedRaisedExactlyWhen : Obligations.UndefinedRaisedExactlyWhen := by
  intro i s
  simp only [exec_eq_fault_iff, AccessOutcome.fault?_eq_undefined_iff, exists_and_right]
  exact and_congr_right' (accessOutcome_eq_iff s .undefined)

/-- Settles O25: the fault carries the code and the destination, so both are those of the read. -/
theorem trapToAArch64EL2ExactlyWhen : Obligations.TrapToAArch64EL2ExactlyWhen := fun i s ec u =>
  (exec_eq_fault_carrying_iff (fun o t => o.fault?_eq_trapEL2AArch64_iff t ec u) i s).trans
    (and_congr_right' (accessOutcome_eq_iff s (.trapEL2AArch64 ec)))

/-- Settles O26: as for the trap to an AArch64 EL2, under the other Execution state's condition. -/
theorem trapToHypExactlyWhen : Obligations.TrapToHypExactlyWhen := fun i s ec u =>
  (exec_eq_fault_carrying_iff (fun o t => o.fault?_eq_trapHyp_iff t ec u) i s).trans
    (and_congr_right' (accessOutcome_eq_iff s (.trapHyp ec)))

/-! ### What completes (R103, R104) -/

/-- Settles O19: the read completes in an admitted form whose access reads. -/
theorem readCompletesExactlyWhen : Obligations.ReadCompletesExactlyWhen := by
  intro c t s
  constructor
  · rintro ⟨s', h⟩
    obtain ⟨rfl, hread, d, rfl, -⟩ := execMrcIdMmfr1_next h
    exact ⟨rfl, d.isLt, (accessOutcome_eq_iff s .read).1 hread⟩
  · rintro ⟨rfl, ht, hcondition⟩
    exact ⟨_, exec_of_accessOutcome_read (t.castLT ht) (accessOutcome_of_condition hcondition)⟩

/-- Settles O33: a step completes only where the access reads, and at EL0 the outcome is `Undefined`. -/
theorem el0CompletesNothing : Obligations.EL0CompletesNothing := by
  intro s s' hel h
  have hread : accessOutcome s = .read := (step_next_effect h).1
  rw [accessOutcome_of_el0 hel] at hread
  cases hread

end Sys2Proof.Machine
end

section
/-! PROOFS. 70_reset_and_hazards.md R121: a program of admitted reads, from its placed text to the end of its run. -/

namespace Sys2Proof.Machine

open Sys2Proof.Safety

/-! ### Program text at `pc` (20_memory.md R58) -/

/-- The bytes of a list of instructions stand in memory from `pc` up. -/
def TextAtPc (s : State) (p : List Instr) : Prop :=
  ∀ k < (p.flatMap (encodeBytes s.cfg.instrSet)).length,
    Memory.read s.mem (addrPlus s.pc k) = (p.flatMap (encodeBytes s.cfg.instrSet))[k]?

@[simp] theorem length_flatMap_encodeBytes (is : InstrSet) (p : List Instr) :
    (p.flatMap (encodeBytes is)).length = 4 * p.length := by
  simp [List.length_flatMap, Nat.mul_comm]

/-- A text no longer than the address space stands where it was placed, also where it wraps past the top. -/
theorem textAtPc_placeProgram (s : State) (base : Word) {p : List Instr} (h : p.length ≤ 2 ^ 30) :
    TextAtPc (placeProgram s base p) p := by
  intro k hk
  refine Memory.read_writeBytes ?_ hk
  rw [length_flatMap_encodeBytes]
  omega

theorem TextAtPc.fetchBytes_eq {s : State} {i : Instr} {p : List Instr} (h : TextAtPc s (i :: p)) :
    fetchBytes s = encodeBytes s.cfg.instrSet i := by
  refine fetchBytes_of_reads fun k hk => ?_
  have hi : k < (encodeBytes s.cfg.instrSet i).length := by rwa [length_encodeBytes]
  rw [h k (by simp; omega), List.flatMap_cons, List.getElem?_append_left hi, encodeBytes]

/-- After a read of the first instruction the rest of the text stands at `pc`. -/
theorem TextAtPc.readEffect {s : State} {i : Instr} {p : List Instr} (h : TextAtPc s (i :: p)) (d : Fin 15)
    (v : Word) : TextAtPc (s.writeX d v).advance p := by
  intro k hk
  have hrest := h (4 + k) (by simp at hk ⊢; omega)
  rw [List.flatMap_cons, List.getElem?_append_right (by simp), length_encodeBytes, Nat.add_sub_cancel_left,
    ← addrPlus_add] at hrest
  exact hrest

/-- A step executes the first instruction of the text at `pc`. -/
theorem step_of_textAtPc {s : State} {i : Instr} {p : List Instr} (hlaunch : launchRefusal s = none)
    (htext : TextAtPc s (i :: p)) (hi : i.encodableIn s.cfg.instrSet = true) : step s = exec i s := by
  refine step_of_decodeBytes_ok (rest := []) hlaunch ?_
  rw [htext.fetchBytes_eq, ← List.append_nil (encodeBytes _ i)]
  exact decodeEncodeAgree _ i [] hi

/-- Both sets can spell an admitted read: its condition is always (30_encoding.md R75). -/
theorem encodableIn_admitted (is : InstrSet) (d : Fin 15) :
    (Instr.mrcIdMmfr1 0b1110#4 d.castSucc).encodableIn is = true := by
  cases is <;> rfl

/-! ### Runs to the end of the text -/

/-- A run is final exactly if every one of its steps completes. -/
theorem runEnd_eq_final_iff (k : Nat) (s s' : State) :
    runEnd k s = .final s' ↔ Host.Core.run core k s = .next s' := by
  induction k generalizing s with
  | zero => rw [runEnd_zero, core_run_zero, RunEnd.final.injEq]
  | succ k ih =>
    rw [core_run_succ]
    cases hstep : step s with
    | next u => simp [runEnd_succ_next k hstep, ih]
    | fault f => simp [runEnd_succ_fault k hstep]
    | refused r => simp [runEnd_succ_refused k hstep]

/-- Between two states, the registers that the reads of a program name hold the constant and are marked as written, and
the others are untouched (70_reset_and_hazards.md R121). -/
def RegistersRead (p : List Instr) (s s' : State) : Prop :=
  (∀ d : Fin 15, .mrcIdMmfr1 0b1110#4 d.castSucc ∈ p → s'.x[d] = s.cfg.idmmfr1Value ∧ s'.written[d] = true) ∧
    (∀ d : Fin 15, .mrcIdMmfr1 0b1110#4 d.castSucc ∉ p → s'.x[d] = s.x[d] ∧ s'.written[d] = s.written[d])

theorem registersRead_nil (s : State) : RegistersRead [] s s :=
  ⟨fun _ h => absurd h List.not_mem_nil, fun _ _ => ⟨rfl, rfl⟩⟩

/-- One read more at the front: a register it names keeps the constant whether or not it is named again. -/
theorem RegistersRead.cons {p : List Instr} {s s' : State} {d : Fin 15}
    (h : RegistersRead p (s.writeX d s.idMmfr1).advance s') :
    RegistersRead (.mrcIdMmfr1 0b1110#4 d.castSucc :: p) s s' := by
  obtain ⟨hnamed, hother⟩ := h
  refine ⟨fun j hj => ?_, fun j hj => ?_⟩
  · by_cases hrest : .mrcIdMmfr1 0b1110#4 j.castSucc ∈ p
    · exact hnamed j hrest
    · obtain ⟨hx, hwritten⟩ := hother j hrest
      have hhead := (List.mem_cons.1 hj).resolve_right hrest
      obtain rfl : j = d := Fin.castSucc_injective 15 (Instr.mrcIdMmfr1.inj hhead).2
      exact ⟨hx.trans (s.readX_writeX_same j s.idMmfr1), hwritten.trans (s.written_writeX_same j s.idMmfr1)⟩
  · obtain ⟨hhead, hrest⟩ := not_or.1 (mt List.mem_cons.2 hj)
    obtain ⟨hx, hwritten⟩ := hother j hrest
    have hjd : j ≠ d := fun e => hhead (e ▸ rfl)
    exact ⟨hx.trans (s.readX_writeX_ne s.idMmfr1 hjd), hwritten.trans (s.written_writeX_ne s.idMmfr1 hjd)⟩

theorem launchRefusal_readEffect {s : State} (d : Fin 15) (v : Word) (h : launchRefusal s = none) :
    launchRefusal (s.writeX d v).advance = none := by
  obtain ⟨hcfg, hpc⟩ := (launchRefusal_none_iff s).1 h
  exact (launchRefusal_none_iff _).2 ⟨hcfg, pcAligned_add_four hpc⟩

/-- Where the access reads, a program of admitted instructions whose text stands at `pc` runs to the end of it. -/
theorem exists_run_of_textAtPc {p : List Instr} {s : State} (hp : ProgramAdmitted p) (hlaunch : launchRefusal s = none)
    (hread : accessOutcome s = .read) (htext : TextAtPc s p) :
    ∃ s', Host.Core.run core p.length s = .next s' ∧ RegistersRead p s s' := by
  induction p generalizing s with
  | nil => exact ⟨s, rfl, registersRead_nil s⟩
  | cons i p ih =>
    obtain ⟨hi, hrest⟩ := List.forall_mem_cons.1 hp
    obtain ⟨d, rfl⟩ := (admitted_iff i).1 hi
    have hstep : step s = .next (s.writeX d s.idMmfr1).advance :=
      (step_of_textAtPc hlaunch htext (encodableIn_admitted _ d)).trans (exec_of_accessOutcome_read d hread)
    obtain ⟨s', hrun, hregs⟩ := ih hrest (launchRefusal_readEffect d _ hlaunch)
      ((accessOutcome_readEffect s d _).trans hread) (htext.readEffect d _)
    exact ⟨s', (core_run_succ _ s s').2 ⟨_, hstep, hrun⟩, hregs.cons⟩

/-! ### The run of a program (R121) -/

section runProgram
variable {s : State} {base : Word} {p : List Instr}

theorem runProgram_of_launchRefusal_none (h : launchRefusal (placeProgram s base p) = none) :
    runProgram s base p = runEnd p.length (placeProgram s base p) := by
  simp only [runProgram, h]

theorem runProgram_of_not_pcAligned (hcfg : configAdmitted s.cfg = true)
    (hpc : pcAligned s.cfg.instrSet base = false) :
    runProgram s base p = .refused (placeProgram s base p) .pcMisaligned := by
  simp [runProgram, launchRefusal, hcfg, hpc]

/-- Placing a program changes none of the eight inputs of the access. -/
theorem accessOutcome_placeProgram (s : State) (base : Word) (p : List Instr) :
    accessOutcome (placeProgram s base p) = accessOutcome s := rfl

theorem exists_final_of_read (hp : ProgramAdmitted p) (hlen : p.length ≤ 2 ^ 30)
    (hlaunch : launchRefusal (placeProgram s base p) = none) (hread : accessOutcome s = .read) :
    ∃ s', runProgram s base p = .final s' ∧ Host.Core.run core p.length (placeProgram s base p) = .next s' ∧
      RegistersRead p (placeProgram s base p) s' := by
  obtain ⟨s', hrun, hregs⟩ := exists_run_of_textAtPc hp hlaunch
    ((accessOutcome_placeProgram s base p).trans hread) (textAtPc_placeProgram s base hlen)
  refine ⟨s', ?_, hrun, hregs⟩
  rw [runProgram_of_launchRefusal_none hlaunch]
  exact (runEnd_eq_final_iff _ _ _).2 hrun

/-- Where the access ends in a fault, a program ends in it at its first instruction, in the launch state itself. -/
theorem runProgram_of_accessOutcome_fault {d : Fin 15} {rest : List Instr}
    (hp : p = .mrcIdMmfr1 0b1110#4 d.castSucc :: rest) (hlen : p.length ≤ 2 ^ 30)
    (hlaunch : launchRefusal (placeProgram s base p) = none) {o : AccessOutcome} {f : Fault}
    (ho : accessOutcome s = o) (hf : o.fault? d.castSucc = some f) :
    runProgram s base p = .faulted (placeProgram s base p) f := by
  rw [runProgram_of_launchRefusal_none hlaunch]
  have htext := textAtPc_placeProgram s base hlen
  subst hp
  exact runEnd_succ_fault _ ((step_of_textAtPc hlaunch htext (encodableIn_admitted _ d)).trans
    (exec_of_accessOutcome_fault d ((accessOutcome_placeProgram s base _).trans ho) hf))

end runProgram

/-- Settles O44: where the access reads, it reads at every step, so the run is final and changes what a run of reads
changes; where it faults, the first step does; a misaligned base fails the launch check. -/
theorem programsEndFinalOrFaultAtBase : Obligations.ProgramsEndFinalOrFaultAtBase := by
  intro s base p hp hlen hcfg launched trapsA64 trapsHyp
  have hlaunch (hpc : pcAligned s.cfg.instrSet base = true) : launchRefusal launched = none :=
    (launchRefusal_none_iff _).2 ⟨hcfg, hpc⟩
  refine ⟨fun hpc hpresent hel h64 h32 => ?_, ?_, runProgram_of_not_pcAligned hcfg⟩
  · have hread : accessOutcome s = .read := by
      refine accessOutcome_of_condition ⟨hpresent, hel, fun hel1 he => ⟨fun ha => ?_, fun ha => ?_⟩⟩
      · simpa [trapsA64, hel1, he, ha] using h64
      · simpa [trapsHyp, hel1, he, ha] using h32
    obtain ⟨s', hend, hrun, hnamed, hother⟩ := exists_final_of_read hp hlen (hlaunch hpc) hread
    have hframe := core_run_next_frame hrun
    exact ⟨s', hend, ⟨rfl, hrun, congrArg State.pc hframe⟩, hnamed, hother, hframe⟩
  · intro c t rest hprogram hpc
    obtain ⟨d, hd⟩ := (admitted_iff _).1 (hp (.mrcIdMmfr1 c t) (by simp [hprogram]))
    obtain ⟨rfl, rfl⟩ := Instr.mrcIdMmfr1.inj hd
    have hfault {o : AccessOutcome} {f : Fault} (ho : accessOutcome s = o) (hf : o.fault? d.castSucc = some f) :
        runProgram s base p = .faulted launched f :=
      runProgram_of_accessOutcome_fault hprogram hlen (hlaunch hpc) ho hf
    exact ⟨fun h => hfault (accessOutcome_of_condition (o := .undefined) h) rfl,
      fun hpresent ⟨hel, he, ha, hbit⟩ => hfault (accessOutcome_of_trapEL2AArch64 hpresent hel he ha hbit) rfl,
      fun hpresent ⟨hel, he, ha, hbit⟩ => hfault (accessOutcome_of_trapHyp hpresent hel he ha hbit) rfl⟩

end Sys2Proof.Machine
end

section
/-! PROOFS. 70_reset_and_hazards.md R114 to R118, 10_state.md R15: which changes are events, which events demand a
flush, and which sequences of actions flush in time. -/

namespace Sys2Proof.Machine

open Sys2Proof.Safety

/-! ### The event of a change (R116, R117) -/

theorem any_counts_iff (fcse : Bool) (ids : List Identifier) :
    ids.any (Identifier.counts fcse) = true ↔
      .contextId ∈ ids ∨ .asid ∈ ids ∨ (fcse = true ∧ .fcseProcessId ∈ ids) := by
  rw [List.any_eq_true]
  constructor
  · rintro ⟨i, hi, hcounts⟩
    cases i with
    | contextId => exact .inl hi
    | asid => exact .inr (.inl hi)
    | fcseProcessId => exact .inr (.inr ⟨hcounts, hi⟩)
  · rintro (hi | hi | ⟨hfcse, hi⟩)
    · exact ⟨_, hi, rfl⟩
    · exact ⟨_, hi, rfl⟩
    · exact ⟨_, hi, hfcse⟩

theorem eventOfChange_of_ttbs {ttbs : List TTBRegister} (h : ttbs ≠ []) (fcse : Bool) (ids : List Identifier) :
    eventOfChange fcse ttbs ids = some (.ttbChanged (ids.any (Identifier.counts fcse))) := by
  simp [eventOfChange, h]

theorem eventOfChange_nil (fcse : Bool) (ids : List Identifier) :
    eventOfChange fcse [] ids = if ids.any (Identifier.counts fcse) then some .idChanged else none := rfl

/-- Without the FCSE an identifier counts exactly if it is not the FCSE ProcessID and counts with the FCSE (R117). -/
theorem any_counts_without_fcse (ids : List Identifier) :
    ids.any (Identifier.counts false) = (ids.filter (· ≠ .fcseProcessId)).any (Identifier.counts true) := by
  rw [List.any_filter]
  congr 1
  funext i
  cases i <;> rfl

/-- Settles O7: the event depends on whether a translation register changes and on whether an identifier counts. -/
theorem eventOfEachChange : Obligations.EventOfEachChange := by
  constructor
  · intro fcse ttbs ids withId
    have hcounts : ids.any (Identifier.counts fcse) = true ↔ withId := any_counts_iff fcse ids
    have hnone (h : ¬withId) : ids.any (Identifier.counts fcse) = false := Bool.eq_false_iff.2 (mt hcounts.1 h)
    refine ⟨fun ht h => ?_, fun ht h => ?_, ?_, ?_⟩
    · rw [eventOfChange_of_ttbs ht, hcounts.2 h]
    · rw [eventOfChange_of_ttbs ht, hnone h]
    · rintro rfl h
      rw [eventOfChange_nil, hcounts.2 h, if_pos rfl]
    · rintro rfl h
      rw [eventOfChange_nil, hnone h, if_neg Bool.false_ne_true]
  · intro ttbs ids
    rw [eventOfChange, eventOfChange, any_counts_without_fcse]

/-! ### The requirement of an event (R118) -/

theorem reserved_bpred_iff (b : BitVec 4) : Field.bpred.reserved b = true ↔ b.toNat > 4 := by
  rw [Field.reserved_iff, Field.mem_definedValues_iff, Nat.not_le]
  rfl

theorem bpFlushRequired_zero (e : Event) : bpFlushRequired 0b0000#4 e = some .unstated := rfl

theorem bpFlushRequired_one (e : Event) : bpFlushRequired 0b0001#4 e = some .required := rfl

theorem bpFlushRequired_three_of_ne {e : Event} (h : e ≠ .instrWritten) :
    bpFlushRequired 0b0011#4 e = some .notRequired := by
  cases e with
  | instrWritten => exact absurd rfl h
  | stageToggled | tablesWritten | ttbChanged | idChanged => rfl

theorem bpFlushRequired_four (e : Event) : bpFlushRequired 0b0100#4 e = some .notRequired := rfl

theorem Requirement.mustFlush_iff (r : Requirement) :
    r.mustFlush = true ↔ r = .required ∨ r = .notListed ∨ r = .unstated := by
  cases r <;> decide

theorem moreInformationMayExist_iff {b : BitVec 4} (h : Field.bpred.reserved b = false) :
    moreInformationMayExist b = true ↔ b = 0b0001#4 ∨ b = 0b0010#4 ∨ b = 0b0011#4 := by
  revert b
  decide

theorem bpred_of_configAdmitted {c : Config} (hc : configAdmitted c = true) (ha : c.armv8a = true) :
    Field.bpred.get c.idmmfr1Value = 0b0010#4 ∨ Field.bpred.get c.idmmfr1Value = 0b0011#4 ∨
      Field.bpred.get c.idmmfr1Value = 0b0100#4 := by
  obtain ⟨-, hpermitted⟩ := (configAdmitted_iff c).1 hc
  obtain ⟨hbpred, -⟩ := (permittedArmv8A_iff_fields _).1 (hpermitted ha)
  exact hbpred

/-- Settles O6: the rows by evaluation, no value for a reserved BPred, and the rows that an admitted value can give. -/
theorem flushRequirementTable : Obligations.FlushRequirementTable :=
  ⟨bpFlushRequired_zero, bpFlushRequired_one, ⟨rfl, rfl, rfl, rfl, rfl, rfl⟩,
    ⟨rfl, fun _ => bpFlushRequired_three_of_ne⟩, bpFlushRequired_four,
    fun b e h => bpFlushRequired_of_reserved e ((reserved_bpred_iff b).2 h), Requirement.mustFlush_iff,
    fun _ => moreInformationMayExist_iff, fun _ => bpred_of_configAdmitted⟩

/-! ### Sequences of actions (R114; log 16) -/

/-- An event demands a flush unless the table says `NotRequired`: also where a reserved BPred gives no value. -/
theorem demandsFlush_iff (b : BitVec 4) (e : Event) :
    ((bpFlushRequired b e).map Requirement.mustFlush).getD true = true ↔ bpFlushRequired b e ≠ some .notRequired := by
  cases bpFlushRequired b e with
  | none => simp
  | some r => cases r <;> simp [Requirement.mustFlush]

/-- A flush stands before every point where software goes on: what a flush that is owed demands of the actions to
come. -/
def FlushBeforeGoOn (acts : List SoftwareAction) : Prop :=
  ∀ between after, acts = between ++ .goOn :: after → .bpFlush ∈ between

/-- A flush stands between every event that demands one and every later point where software goes on. -/
def FlushAfterEvents (b : BitVec 4) (acts : List SoftwareAction) : Prop :=
  ∀ before between after e, acts = before ++ .event e :: between ++ .goOn :: after →
    bpFlushRequired b e ≠ some .notRequired → .bpFlush ∈ between

theorem flushBeforeGoOn_nil : FlushBeforeGoOn [] := by
  intro between after h
  simp at h

theorem flushBeforeGoOn_event (e : Event) (r : List SoftwareAction) :
    FlushBeforeGoOn (.event e :: r) ↔ FlushBeforeGoOn r := by
  constructor
  · intro h between after hr
    simpa using h (.event e :: between) after (by rw [hr]; rfl)
  · intro h between after hr
    obtain ⟨-, ha⟩ | ⟨between', rfl, hr'⟩ := List.cons_eq_append_iff.1 hr
    · cases ha
    · exact List.mem_cons_of_mem _ (h between' after hr')

theorem flushBeforeGoOn_bpFlush (r : List SoftwareAction) : FlushBeforeGoOn (.bpFlush :: r) := by
  intro between after hr
  obtain ⟨-, ha⟩ | ⟨between', rfl, -⟩ := List.cons_eq_append_iff.1 hr
  · cases ha
  · exact List.mem_cons_self

theorem not_flushBeforeGoOn_goOn (r : List SoftwareAction) : ¬FlushBeforeGoOn (.goOn :: r) :=
  fun h => List.not_mem_nil (h [] r rfl)

theorem flushAfterEvents_nil (b : BitVec 4) : FlushAfterEvents b [] := by
  intro before between after e h
  simp at h

/-- The first action matters to the events exactly if it is an event that demands a flush. -/
theorem flushAfterEvents_cons (b : BitVec 4) (a : SoftwareAction) (r : List SoftwareAction) :
    FlushAfterEvents b (a :: r) ↔
      (∀ e, a = .event e → bpFlushRequired b e ≠ some .notRequired → FlushBeforeGoOn r) ∧ FlushAfterEvents b r := by
  constructor
  · refine fun h => ⟨?_, fun before between after e hr => h (a :: before) between after e (by rw [hr]; rfl)⟩
    rintro e rfl hdemands between after rfl
    exact h [] between after e rfl hdemands
  · rintro ⟨hfirst, hrest⟩ before between after e hr hdemands
    cases before with
    | nil =>
      obtain ⟨ha, hr⟩ := List.cons_eq_cons.1 hr
      exact hfirst e ha hdemands between after hr
    | cons a' before =>
      obtain ⟨-, hr⟩ := List.cons_eq_cons.1 hr
      exact hrest before between after e hr hdemands

/-- In time, from a point where a flush is or is not owed: the one that is owed comes, and so do those that the events
to come demand. -/
theorem flushesInTime_iff (b : BitVec 4) (pending : Bool) (acts : List SoftwareAction) :
    flushesInTime b pending acts = true ↔
      (pending = true → FlushBeforeGoOn acts) ∧ FlushAfterEvents b acts := by
  induction acts generalizing pending with
  | nil => simp [flushesInTime, flushBeforeGoOn_nil, flushAfterEvents_nil]
  | cons a r ih =>
    rw [flushAfterEvents_cons]
    cases a with
    | event e =>
      rw [flushesInTime, ih, Bool.or_eq_true, demandsFlush_iff, flushBeforeGoOn_event]
      simp only [SoftwareAction.event.injEq, forall_eq', or_imp, and_assoc]
    | bpFlush => simp [flushesInTime, ih, flushBeforeGoOn_bpFlush]
    | goOn => cases pending <;> simp [flushesInTime, ih, not_flushBeforeGoOn_goOn]

theorem flushesInTime_false_iff (b : BitVec 4) (acts : List SoftwareAction) :
    flushesInTime b false acts = true ↔ FlushAfterEvents b acts := by
  simp [flushesInTime_iff]

theorem demandsFlush_of_required_or_reserved {b : BitVec 4} {e : Event}
    (h : bpFlushRequired b e = some .required ∨ bpFlushRequired b e = some .notListed ∨
      bpFlushRequired b e = some .unstated ∨ b.toNat > 4) : bpFlushRequired b e ≠ some .notRequired := by
  rcases h with h | h | h | h
  · simp [h]
  · simp [h]
  · simp [h]
  · simp [bpFlushRequired_of_reserved e ((reserved_bpred_iff b).2 h)]

/-- Fewer events that demand a flush leave more sequences in time. -/
theorem FlushAfterEvents.mono {b b' : BitVec 4} {acts : List SoftwareAction} (h : FlushAfterEvents b acts)
    (hle : ∀ e, bpFlushRequired b' e ≠ some .notRequired → bpFlushRequired b e ≠ some .notRequired) :
    FlushAfterEvents b' acts :=
  fun before between after e hacts hdemands => h before between after e hacts (hle e hdemands)

/-- Settles O8: the characterisation of the sequences in time, read at each clause's BPred values. -/
theorem flushesInTimeExactlyWhen : Obligations.FlushesInTimeExactlyWhen := by
  refine ⟨flushesInTime_false_iff, fun b e before between after hdemands hno => ?_, fun acts => ?_,
    fun acts hno => ?_, fun acts h => ?_⟩
  · refine Bool.eq_false_iff.2 fun h => hno ?_
    exact (flushesInTime_false_iff b _).1 h before between after e rfl (demandsFlush_of_required_or_reserved hdemands)
  · exact (flushesInTime_false_iff _ acts).2 fun _ _ _ e _ hdemands => absurd (bpFlushRequired_four e) hdemands
  · refine (flushesInTime_false_iff _ acts).2 fun before between after e hacts hdemands => ?_
    have he : e ≠ .instrWritten := by
      rintro rfl
      exact hno (by simp [hacts])
    exact absurd (bpFlushRequired_three_of_ne he) hdemands
  · exact (flushesInTime_false_iff _ acts).2
      (((flushesInTime_false_iff _ acts).1 h).mono fun e _ => by simp [bpFlushRequired_one])

end Sys2Proof.Machine
end
